-- ==== Sys2Proof/Word.lean ====
section
/-! DEFINITION. The word types of the LS8 core: everything the machine stores is a byte (R8, R14). -/

namespace Sys2Proof

/-- The value of a register, a memory cell, the PC or FL: an unsigned 8-bit number (R8).
`+`, `-` and `*` of this type are the exact results reduced modulo 256 (R8, R76). -/
abbrev Byte := BitVec 8

/-- A register number that names a register: 0 to 7 (R14, R17). -/
abbrev RegIndex := Fin 8

end Sys2Proof
end

