-- ==== Sys2Proof/Syntax.lean ====
section
/-! DEFINITION. The instruction set as syntax (R56, R60): 13 instructions, four formats. -/

namespace Sys2Proof

/-- The four instruction formats (R56). -/
inductive Format where
  /-- Opcode alone, length 1. -/
  | f0
  /-- Opcode and one register index, length 2. -/
  | f1r
  /-- Opcode, a register index and an immediate byte, length 3. -/
  | f2ri
  /-- Opcode and two register indices, length 3. -/
  | f2rr
  deriving DecidableEq, Repr

/-- The names of the 13 rows of the opcode map (R60). -/
inductive Mnemonic where
  | hlt | ldi | prn | mul | add | push | pop | call | ret | cmp | jmp | jeq | jne
  deriving DecidableEq, Repr

/-- An instruction with its operand bytes. A register operand is the WHOLE operand byte, not masked to three bits
(R57): a byte of 8 to 255 decodes (R59) and is turned away by the register-operand check that follows (R63). -/
inductive Instr where
  /-- HLT: stop execution (R78). -/
  | hlt
  /-- LDI a,imm8: load an immediate byte (R79). -/
  | ldi (a imm8 : Byte)
  /-- PRN a: emit a register on the output port (R80). -/
  | prn (a : Byte)
  /-- MUL a,b: multiply (R73). -/
  | mul (a b : Byte)
  /-- ADD a,b: add (R72). -/
  | add (a b : Byte)
  /-- PUSH a: push a register (R84). -/
  | push (a : Byte)
  /-- POP a: pop into a register (R85). -/
  | pop (a : Byte)
  /-- CALL a: call the subroutine whose address is in a register (R90). -/
  | call (a : Byte)
  /-- RET: return from a subroutine (R91). -/
  | ret
  /-- CMP a,b: compare and set one flag (R74). -/
  | cmp (a b : Byte)
  /-- JMP a: jump to the address in a register (R92). -/
  | jmp (a : Byte)
  /-- JEQ a: jump if the Equal flag is set (R93). -/
  | jeq (a : Byte)
  /-- JNE a: jump if the Equal flag is clear (R94). -/
  | jne (a : Byte)
  deriving DecidableEq, Repr

/-- The row of the opcode map an instruction belongs to. -/
def Instr.mnemonic : Instr → Mnemonic
  | .hlt => .hlt
  | .ldi _ _ => .ldi
  | .prn _ => .prn
  | .mul _ _ => .mul
  | .add _ _ => .add
  | .push _ => .push
  | .pop _ => .pop
  | .call _ => .call
  | .ret => .ret
  | .cmp _ _ => .cmp
  | .jmp _ => .jmp
  | .jeq _ => .jeq
  | .jne _ => .jne

end Sys2Proof
end

