-- ==== Sys2Proof/Decode.lean ====
section
/-! DEFINITION. The encoding tables (R53 to R60), the decoder (R59) and the encoder written from the same tables. -/

namespace Sys2Proof

/-- The opcode map (R60): the ONE table of opcode bytes, `OPCODE_MAP` of D1. HLT, LDI and PRN are the source's own
values; the other ten the spec supplies from general knowledge (D1, GK1; log 1, PRESUMED). -/
def opcodeOf : Mnemonic → Byte
  | .hlt => 0b00000001
  | .ldi => 0b10000010
  | .prn => 0b01000111
  | .mul => 0b10100010
  | .add => 0b10100000
  | .push => 0b01000101
  | .pop => 0b01000110
  | .call => 0b01010000
  | .ret => 0b00010001
  | .cmp => 0b10100111
  | .jmp => 0b01010100
  | .jeq => 0b01010101
  | .jne => 0b01010110

/-- The format column of the opcode map (R56, R60). -/
def formatOf : Mnemonic → Format
  | .hlt => .f0
  | .ldi => .f2ri
  | .prn => .f1r
  | .mul => .f2rr
  | .add => .f2rr
  | .push => .f1r
  | .pop => .f1r
  | .call => .f1r
  | .ret => .f0
  | .cmp => .f2rr
  | .jmp => .f1r
  | .jeq => .f1r
  | .jne => .f1r

/-- The sets-PC column of the opcode map (R60, R66): a property of the decoded instruction and no bit test (C2; log 14). -/
def setsPc : Mnemonic → Bool
  | .call => true
  | .ret => true
  | .jmp => true
  | .jeq => true
  | .jne => true
  | .hlt => false
  | .ldi => false
  | .prn => false
  | .mul => false
  | .add => false
  | .push => false
  | .pop => false
  | .cmp => false

/-- The rows of the opcode map in the table's order (R60). -/
def allMnemonics : List Mnemonic :=
  [.hlt, .ldi, .prn, .mul, .add, .push, .pop, .call, .ret, .cmp, .jmp, .jeq, .jne]

/-- `IR[7:6]`, the number of operand bytes (R53, R55). -/
def operandCount (ir : Byte) : Byte := ir >>> 6

/-- `1 + IR[7:6]`, the instruction length (R53), as a byte: what the automatic advance adds to the PC (R65). -/
def instrLength (ir : Byte) : Byte := 1 + operandCount ir

/-- The row whose value is the whole IR byte, if there is one (R59: match value, mask 0xFF). -/
def decodeMnemonic (ir : Byte) : Option Mnemonic := allMnemonics.find? (fun m => opcodeOf m == ir)

/-- The instruction of a row with the two fetched operand bytes; a format drops the bytes it does not use (R56). -/
def assemble (m : Mnemonic) (opA opB : Byte) : Instr :=
  match m with
  | .hlt => .hlt
  | .ldi => .ldi opA opB
  | .prn => .prn opA
  | .mul => .mul opA opB
  | .add => .add opA opB
  | .push => .push opA
  | .pop => .pop opA
  | .call => .call opA
  | .ret => .ret
  | .cmp => .cmp opA opB
  | .jmp => .jmp opA
  | .jeq => .jeq opA
  | .jne => .jne opA

/-- What decoding three fetched bytes gives (R59, R61). -/
inductive Decoded where
  /-- The instruction of the matching row. -/
  | instr (i : Instr)
  /-- No row matches the IR byte: the decoder's rejection, by name, with the byte (R61, R102). -/
  | unrecognizedOpcode (ir : Byte)
  deriving DecidableEq, Repr

/-- The decoder (R59): total on any three bytes, as every step fetches three (R58). -/
def decode (ir opA opB : Byte) : Decoded :=
  match decodeMnemonic ir with
  | some m => .instr (assemble m opA opB)
  | none => .unrecognizedOpcode ir

/-- The operand bytes of an instruction in address order (R56). -/
def operandBytes : Instr → List Byte
  | .hlt => []
  | .ldi a imm8 => [a, imm8]
  | .prn a => [a]
  | .mul a b => [a, b]
  | .add a b => [a, b]
  | .push a => [a]
  | .pop a => [a]
  | .call a => [a]
  | .ret => []
  | .cmp a b => [a, b]
  | .jmp a => [a]
  | .jeq a => [a]
  | .jne a => [a]

/-- The encoder (R53, R56, R60): the instruction's bytes, the opcode byte first, at rising addresses (R40). -/
def encode (i : Instr) : List Byte := opcodeOf i.mnemonic :: operandBytes i

/-- Byte `k` of an instruction given as the number `w` of `nbits` bits, bit 0 the least significant bit of the first
byte; every bit above `nbits` is 0. -/
def tableByte (nbits w k : Nat) : Byte := BitVec.ofNat 8 (w % 2 ^ nbits / 256 ^ k)

/-- The decoder's reading of an instruction numbered as spec/opcode_table.json numbers it. -/
def decodeTableWord (nbits w : Nat) : Option Instr :=
  match decode (tableByte nbits w 0) (tableByte nbits w 1) (tableByte nbits w 2) with
  | .instr i => some i
  | .unrecognizedOpcode _ => none

end Sys2Proof
end

