-- ==== Sys2Proof/Config.lean ====
section
/-! DEFINITION. The implementation parameters of the LS8 core (R6), each fixed to one value. -/

namespace Sys2Proof.Config

/-- `MEMSIZE` (R6, R28, R36): addresses 0 to 255. -/
def memSize : Nat := 256

/-- `SP_INDEX` (R6, R15): register 7 is the stack pointer. -/
def spIndex : RegIndex := 7

/-- `SP_INIT` (R6, R31, R120; the spec's decision D6 over C1; log 6). -/
def spInit : Byte := 0xF4

/-- The reset entry point (R118). -/
def resetPc : Byte := 0

/-- `FAULT_EXIT_STATUS` (R6, R110; the spec's decision D8; log 12). A host parameter: no rule of the core reads it. -/
def faultExitStatus : Nat := 0

end Sys2Proof.Config
end

