-- ==== Sys2Proof/Machine/State.lean ====
section
/-! DEFINITION. The architectural state of the LS8 core (R13 to R31): plain data. -/

namespace Sys2Proof.Machine

/-- The 256 cells of memory (R28, R36) as a list of (address, byte) pairs. An unlisted address reads as 0, the reset
content R31 gives every cell. The canonical form is `Memory.wf` of Machine/Ops.lean (log 18). -/
abbrev Memory := List Host.Cell

/-- The fault record of R25, one constructor per fault kind of R101 with exactly the fields that kind records. -/
inductive FaultRecord where
  /-- Code 1. IR matches no row of the opcode map (R102). -/
  | unrecognizedOpcode (pc ir : Byte)
  /-- Code 2. A register operand byte is greater than 7 (R103). -/
  | registerIndexOutOfRange (pc ir index : Byte)
  /-- Code 3. The ALU is asked for an operation outside ADD, MUL and CMP: no step raises it (R75, R105). -/
  | unsupportedAluOperation (pc ir : Byte)
  deriving DecidableEq, Repr

/-- The run state RS (R24). -/
inductive RunState where
  | running
  /-- Terminal; entered only by HLT. -/
  | halted
  /-- Terminal; entered only through `raise` (R9, R100). -/
  | faulted (r : FaultRecord)
  deriving DecidableEq, Repr

/-- The architectural state `(M, x[0..7], PC, FL, RS, OUT)` (R13). -/
structure State where
  /-- `M`, code, data and stack (R28). -/
  mem : Memory
  /-- `x[0..7]`; `x[7]` is SP (R14, R15). -/
  regs : Vector Byte 8
  /-- The program counter, 8 bits (R18). -/
  pc : Byte
  /-- The flags register `0b00000LGE` (R21). -/
  fl : Byte
  /-- The run state (R24). -/
  runState : RunState
  /-- The bytes PRN has emitted since reset, the oldest first (R27). -/
  out : List Byte
  deriving DecidableEq, Repr

/-- The reasons a step could stop with no next state. There is NONE: on this hardware every execution error is a
terminal STATE, `RS = Faulted(kind, info)` (R100, R104), which the step reaches as a next state, and every address names
a cell (R36, R38). Nobody raises a value of this type; safe (log 19). -/
inductive Fault where
  deriving DecidableEq, Repr

/-- The refusals. No step gives one. -/
inductive Refusal where
  /-- An instruction with no meaning yet: raised by a rejected arm of `exec`, of which none is left. Safe. -/
  | notModelled (mnemonic : String)
  /-- Raised by the load port for a load of more than 256 bytes, as R46 says; nothing is written. Safe. -/
  | loadOverflow
  /-- Raised by the host accessors for an address, index or value out of range, as R33 says; nothing changes. Safe. -/
  | hostRequestOutOfRange
  deriving DecidableEq, Repr

/-- The machine right after reset (R31, R120). -/
def State.reset : State where
  mem := []
  regs := #v[0, 0, 0, 0, 0, 0, 0, Config.spInit]
  pc := Config.resetPc
  fl := 0
  runState := .running
  out := []

end Sys2Proof.Machine
end

