-- ==== Sys2Proof/Machine/Ops.lean ====
section
/-! DEFINITION. The named operations over memory and registers that the meanings share (R9), and the taking of a
fault (R104). -/

namespace Sys2Proof.Machine

/-! ### Memory -/

/-- What an unlisted address reads as: 0, the reset content of every cell (R31, R120). -/
def Memory.unlisted : Byte := 0

/-- The byte at an address. -/
def Memory.read : Memory → Nat → Byte
  | [], _ => Memory.unlisted
  | (b, v) :: m, a => if b = a then v else Memory.read m a

/-- The memory with the entry for an address left out: the address then reads as unlisted. -/
def Memory.erase (m : Memory) (a : Nat) : Memory := m.filter (fun c => c.1 != a)

/-- Put an entry before the first entry of a higher address. -/
def Memory.insert : Memory → Nat → Byte → Memory
  | [], a, v => [(a, v)]
  | c :: m, a, v => if a < c.1 then (a, v) :: c :: m else c :: Memory.insert m a v

/-- Store a byte at an address. Storing what an unlisted address reads as only removes the entry. -/
def Memory.write (m : Memory) (a : Nat) (v : Byte) : Memory :=
  if v = Memory.unlisted then Memory.erase m a else Memory.insert (Memory.erase m a) a v

/-- The canonical form: addresses strictly rising and inside the address space (R36), no entry equal to what an
unlisted address reads as. -/
abbrev Memory.wf (m : Memory) : Prop :=
  m.Pairwise (fun c d => c.1 < d.1) ∧ ∀ c ∈ m, c.1 < Config.memSize ∧ c.2 ≠ Memory.unlisted

/-- `MemRead(addr, 1)` (R9, R39): an address is a byte, so it names a cell (R38). -/
def State.readMem (s : State) (a : Byte) : Byte := Memory.read s.mem a.toNat

/-- `MemWrite(addr, 1, v)` (R9, R39). -/
def State.writeMem (s : State) (a v : Byte) : State := { s with mem := Memory.write s.mem a.toNat v }

/-- Store bytes at rising addresses, wrapping modulo 256 (R40, R42). -/
def State.writeBytes (s : State) (a : Byte) : List Byte → State
  | [] => s
  | v :: vs => State.writeBytes (s.writeMem a v) (a + 1) vs

/-! ### Registers -/

/-- `x[i]` (R9). No register is hard-wired or banked (R14). -/
def State.reg (s : State) (r : RegIndex) : Byte := s.regs[r.val]

/-- `x[i] <- v` (R9). -/
def State.setReg (s : State) (r : RegIndex) (v : Byte) : State := { s with regs := s.regs.set r.val v }

/-- SP is register 7 (R15). -/
def State.sp (s : State) : Byte := s.reg Config.spIndex

/-- `x[7] <- v`. -/
def State.setSp (s : State) (v : Byte) : State := s.setReg Config.spIndex v

/-- `pc <- target` (R9). -/
def State.setPc (s : State) (target : Byte) : State := { s with pc := target }

/-- `FL <- v` (R9). -/
def State.setFl (s : State) (v : Byte) : State := { s with fl := v }

/-- `RS <- r`. -/
def State.setRunState (s : State) (r : RunState) : State := { s with runState := r }

/-- `emit(v)`: `OUT <- OUT ++ [v]` (R9, R27, R35). -/
def State.emit (s : State) (v : Byte) : State := { s with out := s.out ++ [v] }

/-! ### The stack (R83, R86) -/

/-- The push half of PUSH and CALL: decrement SP modulo 256, then write the byte at the new SP. The byte is given as a
function of the state AFTER the decrement, for PUSH reads its register there (R84; D10, log 8). -/
def State.pushByte (s : State) (v : State → Byte) : State :=
  let s1 := s.setSp (s.sp - 1)
  s1.writeMem s1.sp (v s1)

/-- The top of the stack: the byte at SP (R83). -/
def State.stackTop (s : State) : Byte := s.readMem s.sp

/-- SP incremented modulo 256 (R85, R86, R91). -/
def State.incSp (s : State) : State := s.setSp (s.sp + 1)

/-! ### The program counter (R65, R66) -/

/-- The end of a step (R64): an instruction that is not PC-setting advances `PC <- (p + 1 + IR[7:6]) mod 256` (R65), where
IR is the instruction's own opcode byte; a PC-setting one has written PC itself and gets no advance (R66). No instruction of
the first kind has written PC before, so PC is still `p` (R65). -/
def State.endStep (s : State) (m : Mnemonic) : State :=
  if setsPc m then s else s.setPc (s.pc + instrLength (opcodeOf m))

/-- The address after a two-byte instruction, `(p + 2) mod 256`: CALL's return address and the path not taken of JEQ and
JNE (R42, R90, R93, R94). -/
def State.afterTwoBytes (s : State) : Byte := s.pc + 2

/-! ### Faults (R100 to R109) -/

/-- `raise`, the taking of a fault: its ONLY effect is `RS <- Faulted(kind, info)` (R9, R104). No register, memory cell,
flag, PC or output changes and control goes nowhere: there is no handler, no saved state and no return from a fault
(R100, R108, R109); only reset leaves the state it enters (`resetPort` of Machine/Ports.lean). -/
def State.raise (s : State) (r : FaultRecord) : State := s.setRunState (.faulted r)

/-- The fault of a step whose IR matches no row: the record holds `pc = p` and `ir` (R102). -/
def raiseUnrecognizedOpcode (ir : Byte) (s : State) : Host.Outcome State Fault Refusal :=
  .next (s.raise (.unrecognizedOpcode s.pc ir))

/-- A step requested while RS is Halted or Faulted does nothing (R67). -/
def idle (s : State) : Host.Outcome State Fault Refusal := .next s

/-! ### Fetch (R58) -/

/-- The latches IR, operand_a and operand_b of one step (R26). They are no part of the state. -/
structure FetchWindow where
  ir : Byte
  opA : Byte
  opB : Byte
  deriving DecidableEq, Repr

/-- The three bytes every step fetches, at PC, PC+1 and PC+2 modulo 256 (R42, R58). -/
def fetchWindow (s : State) : FetchWindow where
  ir := s.readMem s.pc
  opA := s.readMem (s.pc + 1)
  opB := s.readMem (s.pc + 2)

/-- Fetch and decode (R64). -/
def fetchDecode (s : State) : Decoded :=
  decode (fetchWindow s).ir (fetchWindow s).opA (fetchWindow s).opB

/-- The state with an instruction of the opcode table's numbering stored where the next step fetches it: all three bytes
of the fetch window, the bits above `nbits` zero, and the run state that a fetch needs (R64; log 16). -/
def placeFetchWord (s : State) (nbits w : Nat) : State :=
  (s.writeBytes s.pc [tableByte nbits w 0, tableByte nbits w 1, tableByte nbits w 2]).setRunState .running

end Sys2Proof.Machine
end

