-- ==== Sys2Proof/Machine/Flags.lean ====
section
/-! DEFINITION. The flags register `FL = 0b00000LGE` (R21) and the one flag computation, CMP's (R74). The bit places are
the spec's, from general knowledge (GK2, D5; log 2, PRESUMED); no instruction reads FL as a byte. -/

namespace Sys2Proof.Machine

/-- FL with only E set. -/
def flEqual : Byte := 0b00000001

/-- FL with only G set. -/
def flGreater : Byte := 0b00000010

/-- FL with only L set. -/
def flLess : Byte := 0b00000100

/-- `FL.E`, bit 0. -/
def State.flagE (s : State) : Bool := s.fl.getLsbD 0

/-- `FL.G`, bit 1. No instruction reads it (R22). -/
def State.flagG (s : State) : Bool := s.fl.getLsbD 1

/-- `FL.L`, bit 2. No instruction reads it (R22). -/
def State.flagL (s : State) : Bool := s.fl.getLsbD 2

/-- The FL value CMP writes for two register values, compared as unsigned bytes (R74; `CMP_SIGNED` = false, D4, log 5).
All of FL is written, so the other two flags are cleared and bits 7 to 3 are 0. -/
def compareFlags (x y : Byte) : Byte :=
  if x = y then flEqual else if y.toNat < x.toNat then flGreater else flLess

/-- The values FL can hold: none of L, G, E set (after reset), or exactly one; bits 7 to 3 are 0 (R21, R23). -/
abbrev legalFlags (fl : Byte) : Prop := fl = 0 ∨ fl = flEqual ∨ fl = flGreater ∨ fl = flLess

end Sys2Proof.Machine
end

