-- ==== Sys2Proof/Machine/Operands.lean ====
section
/-! DEFINITION. Operand forms (R56, R57) and the register-operand check (R63). There are three kinds of operand: none,
a register index (the whole byte) and LDI's immediate byte, which is used as it is. -/

namespace Sys2Proof.Machine

/-- The register an operand byte names, if it is 0 to 7. The byte is not masked (R17, R57). -/
def registerIndex (a : Byte) : Option RegIndex :=
  if h : a.toNat < 8 then some ⟨a.toNat, h⟩ else none

/-- The operand byte that names a register. -/
def regOperand (r : RegIndex) : Byte := BitVec.ofNat 8 r.val

/-- The check of operand_a for formats F1R and F2RI (R63): a byte over 7 raises RegisterIndexOutOfRange with `pc = p`, the
instruction's opcode byte and that byte (R103), before anything is written (R104). The opcode byte is the one the row was
matched on, so it is IR (log 15). -/
def withRegister (m : Mnemonic) (a : Byte) (s : State)
    (k : RegIndex → Host.Outcome State Fault Refusal) : Host.Outcome State Fault Refusal :=
  match registerIndex a with
  | some r => k r
  | none => .next (s.raise (.registerIndexOutOfRange s.pc (opcodeOf m) a))

/-- The check of format F2RR: operand_a, then operand_b (R63, R106). -/
def withRegisters (m : Mnemonic) (a b : Byte) (s : State)
    (k : RegIndex → RegIndex → Host.Outcome State Fault Refusal) : Host.Outcome State Fault Refusal :=
  withRegister m a s (fun ra => withRegister m b s (fun rb => k ra rb))

end Sys2Proof.Machine
end

