-- ==== Sys2Proof/Machine/Alu.lean ====
section
/-! DEFINITION. The ALU and its instructions: ADD, MUL, CMP (`40_alu.md`). None is PC-setting. -/

namespace Sys2Proof.Machine

/-- The operations of the ALU, a closed set (R71). No other can be requested, so UnsupportedAluOperation cannot be
raised (R75, R105). -/
inductive AluOp where
  | add | mul | cmp
  deriving DecidableEq, Repr

/-- The ALU (R71): it reads two registers and writes `x[a]` (ADD, MUL) or FL (CMP) and nothing else. `+` and `*` on bytes
are the exact results modulo 256; no carry, overflow or high byte is recorded (R72, R73, R76). -/
def alu (op : AluOp) (a b : RegIndex) (s : State) : State :=
  match op with
  | .add => s.setReg a (s.reg a + s.reg b)
  | .mul => s.setReg a (s.reg a * s.reg b)
  | .cmp => s.setFl (compareFlags (s.reg a) (s.reg b))

/-- ADD (R72): `x[a] <- (x[a] + x[b]) mod 256`. -/
def execAdd (a b : Byte) (s : State) : Host.Outcome State Fault Refusal :=
  withRegisters .add a b s (fun ra rb => .next ((alu .add ra rb s).endStep .add))

/-- MUL (R73): `x[a] <- (x[a] * x[b]) mod 256`. -/
def execMul (a b : Byte) (s : State) : Host.Outcome State Fault Refusal :=
  withRegisters .mul a b s (fun ra rb => .next ((alu .mul ra rb s).endStep .mul))

/-- CMP (R74): FL gets exactly one of E, G, L, by the unsigned order of `x[a]` and `x[b]`. -/
def execCmp (a b : Byte) (s : State) : Host.Outcome State Fault Refusal :=
  withRegisters .cmp a b s (fun ra rb => .next ((alu .cmp ra rb s).endStep .cmp))

end Sys2Proof.Machine
end

