-- ==== Sys2Proof/Machine/ControlFlow.lean ====
section
/-! DEFINITION. Control flow: CALL, RET, JMP, JEQ, JNE (`43_control_flow.md`). All are PC-setting: the meaning alone
writes PC, on every path (R66). Every byte address is a legal target (R89). -/

namespace Sys2Proof.Machine

/-- CALL (R90): decrement SP, `M[SP] <- (p + 2) mod 256`, then `pc <- x[a]`, with `x[a]` read after the decrement. -/
def execCall (a : Byte) (s : State) : Host.Outcome State Fault Refusal :=
  withRegister .call a s (fun r =>
    let s1 := s.pushByte (fun _ => s.afterTwoBytes)
    .next ((s1.setPc (s1.reg r)).endStep .call))

/-- RET (R91): `pc <- M[SP]`, then increment SP. -/
def execRet (s : State) : Host.Outcome State Fault Refusal :=
  .next (((s.setPc s.stackTop).incSp).endStep .ret)

/-- JMP (R92): `pc <- x[a]`. -/
def execJmp (a : Byte) (s : State) : Host.Outcome State Fault Refusal :=
  withRegister .jmp a s (fun r => .next ((s.setPc (s.reg r)).endStep .jmp))

/-- JEQ (R93): `pc <- x[a]` if `FL.E = 1`, else `(p + 2) mod 256`. The register index is checked on both paths. -/
def execJeq (a : Byte) (s : State) : Host.Outcome State Fault Refusal :=
  withRegister .jeq a s (fun r => .next ((s.setPc (if s.flagE then s.reg r else s.afterTwoBytes)).endStep .jeq))

/-- JNE (R94): `pc <- x[a]` if `FL.E = 0`, else `(p + 2) mod 256`. The register index is checked on both paths. -/
def execJne (a : Byte) (s : State) : Host.Outcome State Fault Refusal :=
  withRegister .jne a s (fun r => .next ((s.setPc (if s.flagE then s.afterTwoBytes else s.reg r)).endStep .jne))

end Sys2Proof.Machine
end

