-- ==== Sys2Proof/Machine/MachineIo.lean ====
section
/-! DEFINITION. Machine control, immediate load and output: HLT, LDI, PRN (`41_machine_io.md`). None is PC-setting. -/

namespace Sys2Proof.Machine

/-- HLT (R78): advance PC by 1, then the core is Halted. Nothing else changes. -/
def execHlt (s : State) : Host.Outcome State Fault Refusal :=
  .next ((s.endStep .hlt).setRunState .halted)

/-- LDI (R79): `x[a] <- opB`. The immediate is any byte and is not checked. -/
def execLdi (a imm8 : Byte) (s : State) : Host.Outcome State Fault Refusal :=
  withRegister .ldi a s (fun r => .next ((s.setReg r imm8).endStep .ldi))

/-- PRN (R80): `emit(x[a])`. -/
def execPrn (a : Byte) (s : State) : Host.Outcome State Fault Refusal :=
  withRegister .prn a s (fun r => .next ((s.emit (s.reg r)).endStep .prn))

end Sys2Proof.Machine
end

