-- ==== Sys2Proof/Machine/Stack.lean ====
section
/-! DEFINITION. Stack instructions: PUSH, POP (`42_stack.md`). Neither is PC-setting. Nothing detects overflow, underflow
or collision with the program (R87). -/

namespace Sys2Proof.Machine

/-- PUSH (R84): decrement SP, then `M[SP] <- x[a]`, with `x[a]` read after the decrement. -/
def execPush (a : Byte) (s : State) : Host.Outcome State Fault Refusal :=
  withRegister .push a s (fun r => .next ((s.pushByte (fun s1 => s1.reg r)).endStep .push))

/-- POP (R85): `x[a] <- M[SP]`, then increment SP, with SP read after the write to `x[a]`. -/
def execPop (a : Byte) (s : State) : Host.Outcome State Fault Refusal :=
  withRegister .pop a s (fun r => .next (((s.setReg r s.stackTop).incSp).endStep .pop))

end Sys2Proof.Machine
end

