-- ==== Sys2Proof/Machine/Step.lean ====
section
/-! DEFINITION. One step of the fetch-decode-execute engine (R64). -/

namespace Sys2Proof.Machine

/-- One step (R64): nothing in a terminal state (R67); otherwise fetch three bytes, decode, raise UnrecognizedOpcode if no
row matches, and execute. The register-operand check (R63), the automatic advance (R65) and HLT's change of RS are in the
meanings. -/
def step (s : State) : Host.Outcome State Fault Refusal :=
  match s.runState with
  | .running =>
    match fetchDecode s with
    | .instr i => exec i s
    | .unrecognizedOpcode ir => raiseUnrecognizedOpcode ir s
  | .halted => idle s
  | .faulted _ => idle s

/-- The state with that instruction placed where the next step fetches (`placeFetchWord`; log 16). -/
def State.withFetchWord (s : State) (nbits w : Nat) : State := placeFetchWord s nbits w

end Sys2Proof.Machine
end

