-- ==== Sys2Proof/Machine/Ports.lean ====
section
/-! DEFINITION. The block's ports (R32) beside step and run: reset, load, status, host accessors, trace. Each is one
transaction between steps, with no clock (D10). -/

namespace Sys2Proof.Machine

/-- The reset port (R32, R116, R120): whatever the state was, every component gets its reset value (R117; D20, log 13). -/
def resetPort (_ : State) : State := State.reset

/-! ### The load port (R44 to R46) -/

/-- An element of a load sequence (R44). -/
inductive LoadItem where
  | byte (v : Byte)
  /-- Writes nothing and consumes no address (R45; D9, log 9). -/
  | ignore
  deriving DecidableEq, Repr

/-- The bytes of a load sequence, without the "ignore" elements (R44, R45). -/
def loadValues : List LoadItem → List Byte
  | [] => []
  | .byte v :: seq => v :: loadValues seq
  | .ignore :: seq => loadValues seq

/-- The load port (R44): write the bytes at addresses 0, 1, and so on, or refuse a load of more than 256 bytes whole (R46). -/
def loadPort (seq : List LoadItem) (s : State) : Host.Outcome State Fault Refusal :=
  if Config.memSize < (loadValues seq).length then .refused .loadOverflow
  else .next (s.writeBytes 0 (loadValues seq))

/-! ### The host accessors (R33): requests out of range are refused and change nothing (D12, log 10) -/

/-- `readMemory(address)`. -/
def readMemory (address : Nat) (s : State) : Except Refusal Byte :=
  if address < Config.memSize then .ok (s.readMem (BitVec.ofNat 8 address)) else .error .hostRequestOutOfRange

/-- `writeMemory(address, value)`. -/
def writeMemory (address value : Nat) (s : State) : Host.Outcome State Fault Refusal :=
  if address < Config.memSize ∧ value < 256 then
    .next (s.writeMem (BitVec.ofNat 8 address) (BitVec.ofNat 8 value))
  else .refused .hostRequestOutOfRange

/-- `readRegister(index)`. -/
def readRegister (index : Nat) (s : State) : Except Refusal Byte :=
  if h : index < 8 then .ok (s.reg ⟨index, h⟩) else .error .hostRequestOutOfRange

/-- `writeRegister(index, value)`. -/
def writeRegister (index value : Nat) (s : State) : Host.Outcome State Fault Refusal :=
  if h : index < 8 then
    if value < 256 then .next (s.setReg ⟨index, h⟩ (BitVec.ofNat 8 value)) else .refused .hostRequestOutOfRange
  else .refused .hostRequestOutOfRange

/-! ### Status (R34, R101, R110) -/

/-- The fault code on the status output (R101; D17). -/
def faultCode : FaultRecord → Nat
  | .unrecognizedOpcode _ _ => 1
  | .registerIndexOutOfRange _ _ _ => 2
  | .unsupportedAluOperation _ _ => 3

/-- The `pc` of a fault record (R25). -/
def faultPc : FaultRecord → Byte
  | .unrecognizedOpcode pc _ => pc
  | .registerIndexOutOfRange pc _ _ => pc
  | .unsupportedAluOperation pc _ => pc

/-- The `ir` of a fault record (R25). -/
def faultIr : FaultRecord → Byte
  | .unrecognizedOpcode _ ir => ir
  | .registerIndexOutOfRange _ ir _ => ir
  | .unsupportedAluOperation _ ir => ir

/-- The `index` of a fault record, which only RegisterIndexOutOfRange has (R25). -/
def faultIndex : FaultRecord → Option Byte
  | .unrecognizedOpcode _ _ => none
  | .registerIndexOutOfRange _ _ index => some index
  | .unsupportedAluOperation _ _ => none

/-- The status output presents RS with the fault record (R34). -/
def statusOutput (s : State) : RunState := s.runState

/-- Halted or Faulted (R24): a run ends here (R128). -/
def State.terminal (s : State) : Bool :=
  match s.runState with
  | .running => false
  | .halted => true
  | .faulted _ => true

/-- The exit status the host reports when a run has ended (R110; D8, log 12): 0 on a normal halt. -/
def exitStatus : RunState → Option Nat
  | .running => none
  | .halted => some 0
  | .faulted _ => some Config.faultExitStatus

/-! ### The trace observer (R112) -/

/-- What the trace observer sees before a step: PC, the three fetched bytes and all registers. -/
structure TraceRecord where
  pc : Byte
  window : FetchWindow
  regs : Vector Byte 8
  deriving DecidableEq, Repr

/-- The trace observer: a record at the start of each step taken while RS is Running. It changes no state. -/
def traceOutput (s : State) : Option TraceRecord :=
  match s.runState with
  | .running => some ⟨s.pc, fetchWindow s, s.regs⟩
  | .halted => none
  | .faulted _ => none

end Sys2Proof.Machine
end

