-- ==== Sys2Proof/Machine/Run.lean ====
section
/-! DEFINITION. Runs (R68, R128): repeated steps until RS is terminal. The machine has no step limit (R129); the counts
below only say how far one looks. -/

namespace Sys2Proof.Machine

/-- `k` steps. -/
def runFor : Nat → State → Host.Outcome State Fault Refusal
  | 0, s => .next s
  | k + 1, s =>
    match step s with
    | .next t => runFor k t
    | .fault r => .fault r
    | .refused r => .refused r

/-- `run` called on `s` returns with the state `t` (R68, R128). -/
def RunEndsIn (s t : State) : Prop := t.terminal = true ∧ ∃ k, runFor k s = .next t

/-- `run` called on `s` never returns: RS is Running after every number of steps (R68, R129). -/
def RunsForever (s : State) : Prop := ∀ k, ∃ t, runFor k s = .next t ∧ t.runState = .running

/-- The meanings of a list of instructions, one after another, with no fetch between them. -/
def execAll : List Instr → State → Host.Outcome State Fault Refusal
  | [], s => .next s
  | i :: is, s =>
    match exec i s with
    | .next t => execAll is t
    | .fault r => .fault r
    | .refused r => .refused r

end Sys2Proof.Machine
end

