-- ==== Sys2Proof/WellFormed.lean ====
section
/-! DEFINITION. Which instruction terms are well formed: every operand byte that the format designates as a register
index names one of the eight registers (R17, R57, R63). An ill-formed term is still an instruction the machine can
meet: its meaning takes the RegisterIndexOutOfRange fault (R103). -/

namespace Sys2Proof

/-- The byte names one of the eight registers (R17). -/
def namesRegister (a : Byte) : Bool := decide (a.toNat < 8)

/-- The operand bytes the instruction's format designates as register indices, operand_a first (R56, R63).
LDI's operand_b is an immediate and is not among them. -/
def Instr.registerOperands : Instr → List Byte
  | .hlt => []
  | .ldi a _ => [a]
  | .prn a => [a]
  | .mul a b => [a, b]
  | .add a b => [a, b]
  | .push a => [a]
  | .pop a => [a]
  | .call a => [a]
  | .ret => []
  | .cmp a b => [a, b]
  | .jmp a => [a]
  | .jeq a => [a]
  | .jne a => [a]

/-- Every register operand names a register (R63). -/
def Instr.wellFormed (i : Instr) : Bool := i.registerOperands.all namesRegister

/-- The first register operand that names no register: the one the fault record reports (R63, R103, R106). -/
def Instr.firstBadOperand (i : Instr) : Option Byte := i.registerOperands.find? (fun a => !namesRegister a)

end Sys2Proof
end

