-- ==== Sys2Proof/Safety.lean ====
section
/-! DEFINITION. What counts as a safe run, the invariant of the machine's state, and the frame vocabulary in which the
statements are written. -/

namespace Sys2Proof.Machine

/-! ### Frames -/

/-- Every register but those listed holds what it held. -/
def SameRegistersExcept (ds : List RegIndex) (s t : State) : Prop := ∀ r, r ∉ ds → t.reg r = s.reg r

/-- Every cell of memory but those listed reads as it read. -/
def SameMemoryExcept (as : List Byte) (s t : State) : Prop := ∀ a, a ∉ as → t.readMem a = s.readMem a

/-- FL, RS and OUT are what they were. -/
def SameFlagsRunOut (s t : State) : Prop := t.fl = s.fl ∧ t.runState = s.runState ∧ t.out = s.out

/-! ### Which registers an instruction reads and writes (the table of R16) -/

/-- The registers an instruction writes (R16). -/
def regsWritten : Instr → List RegIndex
  | .hlt => []
  | .ldi a _ => (registerIndex a).toList
  | .prn _ => []
  | .mul a _ => (registerIndex a).toList
  | .add a _ => (registerIndex a).toList
  | .push _ => [7]
  | .pop a => 7 :: (registerIndex a).toList
  | .call _ => [7]
  | .ret => [7]
  | .cmp _ _ => []
  | .jmp _ => []
  | .jeq _ => []
  | .jne _ => []

/-- The registers an instruction reads, given whether `FL.E` is set (R16). -/
def regsRead (equal : Bool) : Instr → List RegIndex
  | .hlt => []
  | .ldi _ _ => []
  | .prn a => (registerIndex a).toList
  | .mul a b => (registerIndex a).toList ++ (registerIndex b).toList
  | .add a b => (registerIndex a).toList ++ (registerIndex b).toList
  | .push a => 7 :: (registerIndex a).toList
  | .pop _ => [7]
  | .call a => 7 :: (registerIndex a).toList
  | .ret => [7]
  | .cmp a b => (registerIndex a).toList ++ (registerIndex b).toList
  | .jmp a => (registerIndex a).toList
  | .jeq a => if equal then (registerIndex a).toList else []
  | .jne a => if equal then [] else (registerIndex a).toList

/-! ### The invariant -/

/-- A terminal run state tells the truth about the step that entered it: after HLT the byte before PC is HLT's opcode
(R78); a fault record holds the PC and the bytes memory holds there, its cause is there, and the ALU fault is never
recorded (R75, R102, R103, R106). -/
def State.recordSound (s : State) : Prop :=
  match s.runState with
  | .running => True
  | .halted => s.readMem (s.pc - 1) = opcodeOf .hlt
  | .faulted (.unrecognizedOpcode pc ir) => pc = s.pc ∧ ir = s.readMem s.pc ∧ decodeMnemonic ir = none
  | .faulted (.registerIndexOutOfRange pc ir index) =>
    pc = s.pc ∧ ir = s.readMem s.pc ∧ 8 ≤ index.toNat ∧ decodeMnemonic ir ≠ none ∧
      (index = s.readMem (s.pc + 1) ∨ ((s.readMem (s.pc + 1)).toNat < 8 ∧ index = s.readMem (s.pc + 2)))
  | .faulted (.unsupportedAluOperation _ _) => False

/-- The invariant of the machine's state. -/
structure StateInv (s : State) : Prop where
  /-- Memory keeps its canonical form (log 18). -/
  mem_wf : Memory.wf s.mem
  /-- At most one of L, G, E is set and bits 7 to 3 of FL are 0 (R21, R23). -/
  fl_legal : legalFlags s.fl
  /-- The run state tells the truth. -/
  record_sound : s.recordSound

/-! ### Safe runs -/

/-- A run that never faults (R100): no number of steps reaches Faulted. -/
def SafeRun (s : State) : Prop := ∀ k t, runFor k s = .next t → ∀ r, t.runState ≠ .faulted r

end Sys2Proof.Machine
end

