-- ==== Sys2Proof/Certificates/Slice0/Obligations.lean ====
section
/-! DEFINITION. The statements for the provers. Register operands are written `regOperand r` with `r` one of the eight
registers, which is every valid operand byte; `BadRegisterOperandFaults` covers every other byte. -/

open Sys2Proof Sys2Proof.Machine

/-! ### Machine control, immediate load, output -/

/-- R78, and R65 for the PC. The PC after HLT is the spec's inference ("This follows from the source's order of steps 3 and
4"), so the basis is derived. -/
def Obligations.HltHalts : Prop :=
  encode .hlt = [0x01] ∧
  ∀ s : State, ∃ t, exec .hlt s = .next t ∧
    t.runState = .halted ∧ t.pc = s.pc + 1 ∧
    SameRegistersExcept [] s t ∧ SameMemoryExcept [] s t ∧ t.fl = s.fl ∧ t.out = s.out

/-- R79, whole: the encoding, the effect and its frame, the fault by its name (`State.raise` is R9's), and "the only way to
move SP other than PUSH, POP, CALL, RET, ADD and MUL on R7": LDI, ADD and MUL move SP only when their first operand is R7. -/
def Obligations.LdiLoadsImmediate : Prop :=
  (∀ a v : Byte, encode (.ldi a v) = [0x82, a, v]) ∧
  (∀ (r : RegIndex) (v : Byte) (s : State), ∃ t, exec (.ldi (regOperand r) v) s = .next t ∧
    t.reg r = v ∧ t.pc = s.pc + 3 ∧
    SameRegistersExcept [r] s t ∧ SameMemoryExcept [] s t ∧ SameFlagsRunOut s t) ∧
  (∀ (a v : Byte) (s : State), 8 ≤ a.toNat →
    ∃ pc ir index, exec (.ldi a v) s = .next (s.raise (.registerIndexOutOfRange pc ir index))) ∧
  (∀ (i : Instr) (s t : State), exec i s = .next t → t.sp ≠ s.sp →
    (∃ v, i = .ldi (regOperand 7) v) ∨ i.mnemonic ∈ [.push, .pop, .call, .ret] ∨
    (∃ b, i = .add (regOperand 7) b) ∨ (∃ b, i = .mul (regOperand 7) b))

/-- R80, whole: the encoding, the byte emitted and the frame, the fault by its name, and that a PRN that faults emits
nothing. -/
def Obligations.PrnEmitsRegister : Prop :=
  (∀ a : Byte, encode (.prn a) = [0x47, a]) ∧
  (∀ (r : RegIndex) (s : State), ∃ t, exec (.prn (regOperand r)) s = .next t ∧
    t.out = s.out ++ [s.reg r] ∧ t.pc = s.pc + 2 ∧
    SameRegistersExcept [] s t ∧ SameMemoryExcept [] s t ∧ t.fl = s.fl ∧ t.runState = s.runState) ∧
  (∀ (a : Byte) (s : State), 8 ≤ a.toNat →
    ∃ t pc ir index, exec (.prn a) s = .next t ∧ t.runState = .faulted (.registerIndexOutOfRange pc ir index) ∧
      t.out = s.out)

/-! ### ALU -/

/-- The ADD entry of `40_alu.md` (R72). Its opcode byte is the spec's D1 (log 1). -/
def Obligations.AddWraps : Prop :=
  ∀ (ra rb : RegIndex) (s : State), ∃ t, exec (.add (regOperand ra) (regOperand rb)) s = .next t ∧
    (t.reg ra).toNat = ((s.reg ra).toNat + (s.reg rb).toNat) % 256 ∧ t.pc = s.pc + 3 ∧
    SameRegistersExcept [ra] s t ∧ SameMemoryExcept [] s t ∧ SameFlagsRunOut s t

/-- The MUL entry of `40_alu.md` (R73). Its opcode byte is the spec's D1 (log 1). -/
def Obligations.MulKeepsLowByte : Prop :=
  ∀ (ra rb : RegIndex) (s : State), ∃ t, exec (.mul (regOperand ra) (regOperand rb)) s = .next t ∧
    (t.reg ra).toNat = ((s.reg ra).toNat * (s.reg rb).toNat) % 256 ∧ t.pc = s.pc + 3 ∧
    SameRegistersExcept [ra] s t ∧ SameMemoryExcept [] s t ∧ SameFlagsRunOut s t

/-- The CMP entry of `40_alu.md` (R74). The unsigned order is the spec's D4 (log 5), the bit places its D5 (log 2). -/
def Obligations.CmpSetsOneFlag : Prop :=
  ∀ (ra rb : RegIndex) (s : State), ∃ t, exec (.cmp (regOperand ra) (regOperand rb)) s = .next t ∧
    ((s.reg ra).toNat = (s.reg rb).toNat → t.fl = 0b00000001) ∧
    ((s.reg ra).toNat > (s.reg rb).toNat → t.fl = 0b00000010) ∧
    ((s.reg ra).toNat < (s.reg rb).toNat → t.fl = 0b00000100) ∧ t.pc = s.pc + 3 ∧
    SameRegistersExcept [] s t ∧ SameMemoryExcept [] s t ∧ t.runState = s.runState ∧ t.out = s.out

/-! ### Stack -/

/-- The PUSH entry of `42_stack.md` (R84). That PUSH R7 stores the decremented SP is the spec's D10 (log 8). The address
stored to is SP minus 1. -/
def Obligations.PushStoresBelowSp : Prop :=
  ∀ (r : RegIndex) (s : State), ∃ t, exec (.push (regOperand r)) s = .next t ∧
    t.sp = s.sp - 1 ∧ t.readMem (s.sp - 1) = (if r = 7 then s.sp - 1 else s.reg r) ∧ t.pc = s.pc + 2 ∧
    SameRegistersExcept [7] s t ∧ SameMemoryExcept [s.sp - 1] s t ∧ SameFlagsRunOut s t

/-- The POP entry of `42_stack.md` (R85). That POP R7 leaves the popped byte plus 1 is the spec's D10 (log 8). -/
def Obligations.PopLoadsFromSp : Prop :=
  ∀ (r : RegIndex) (s : State), ∃ t, exec (.pop (regOperand r)) s = .next t ∧
    (r ≠ 7 → t.reg r = s.readMem s.sp ∧ t.sp = s.sp + 1) ∧
    (r = 7 → t.sp = s.readMem s.sp + 1) ∧ t.pc = s.pc + 2 ∧
    SameRegistersExcept [r, 7] s t ∧ SameMemoryExcept [] s t ∧ SameFlagsRunOut s t

/-! ### Control flow -/

/-- The CALL entry of `43_control_flow.md` (R90). That CALL R7 jumps to the decremented SP is the spec's D10 (log 8); the
return address wraps by D2 (log 3). The address stored to is SP minus 1. -/
def Obligations.CallPushesReturnAddress : Prop :=
  ∀ (r : RegIndex) (s : State), ∃ t, exec (.call (regOperand r)) s = .next t ∧
    t.sp = s.sp - 1 ∧ t.readMem (s.sp - 1) = s.pc + 2 ∧ t.pc = (if r = 7 then s.sp - 1 else s.reg r) ∧
    SameRegistersExcept [7] s t ∧ SameMemoryExcept [s.sp - 1] s t ∧ SameFlagsRunOut s t

/-- The RET entry of `43_control_flow.md` (R91). -/
def Obligations.RetPopsPc : Prop :=
  ∀ s : State, ∃ t, exec .ret s = .next t ∧
    t.pc = s.readMem s.sp ∧ t.sp = s.sp + 1 ∧
    SameRegistersExcept [7] s t ∧ SameMemoryExcept [] s t ∧ SameFlagsRunOut s t

/-- The JMP entry of `43_control_flow.md` (R92). -/
def Obligations.JmpSetsPc : Prop :=
  ∀ (r : RegIndex) (s : State), ∃ t, exec (.jmp (regOperand r)) s = .next t ∧ t.pc = s.reg r ∧
    SameRegistersExcept [] s t ∧ SameMemoryExcept [] s t ∧ SameFlagsRunOut s t

/-- The JEQ entry of `43_control_flow.md` (R93). The wrap of the fall-through address is the spec's D2 (log 3). -/
def Obligations.JeqBranchesOnEqual : Prop :=
  ∀ (r : RegIndex) (s : State), ∃ t, exec (.jeq (regOperand r)) s = .next t ∧
    (s.flagE = true → t.pc = s.reg r) ∧ (s.flagE = false → t.pc = s.pc + 2) ∧
    SameRegistersExcept [] s t ∧ SameMemoryExcept [] s t ∧ SameFlagsRunOut s t

/-- The JNE entry of `43_control_flow.md` (R94). The wrap of the fall-through address is the spec's D2 (log 3). -/
def Obligations.JneBranchesOnNotEqual : Prop :=
  ∀ (r : RegIndex) (s : State), ∃ t, exec (.jne (regOperand r)) s = .next t ∧
    (s.flagE = false → t.pc = s.reg r) ∧ (s.flagE = true → t.pc = s.pc + 2) ∧
    SameRegistersExcept [] s t ∧ SameMemoryExcept [] s t ∧ SameFlagsRunOut s t

/-- R91's "CALL followed eventually by RET returns execution to the instruction immediately after CALL's two operand bytes",
where the callee left SP and the return cell as CALL left them. (An inference the spec marks as derived.) -/
def Obligations.CallThenRetReturns : Prop :=
  ∀ (r : RegIndex) (s t u : State), exec (.call (regOperand r)) s = .next t →
    u.sp = t.sp → u.readMem t.sp = t.readMem t.sp →
    ∃ v, exec .ret u = .next v ∧ v.pc = s.pc + 2 ∧ v.sp = s.sp

/-- R94's "for any FL, exactly one of them branches" (marked derived there): on the same state one goes to the register's
address and the other to the next instruction. -/
def Obligations.JeqJneComplementary : Prop :=
  ∀ (r : RegIndex) (s : State), ∃ t u, exec (.jeq (regOperand r)) s = .next t ∧ exec (.jne (regOperand r)) s = .next u ∧
    ((t.pc = s.reg r ∧ u.pc = s.pc + 2) ∨ (t.pc = s.pc + 2 ∧ u.pc = s.reg r)) ∧
    u.setPc t.pc = t

/-! ### Faults and the run state -/

/-- The check of R63 with the record of R103 and the order of R106, the spec's D3, D7 and D19 (log 4, log 7): in every
instruction a register operand byte over 7 takes the fault, the first one is reported, and nothing else changes. -/
def Obligations.BadRegisterOperandFaults : Prop :=
  ∀ (i : Instr) (s : State) (a : Byte), i.firstBadOperand = some a →
    exec i s = .next (s.raise (.registerIndexOutOfRange s.pc (opcodeOf i.mnemonic) a))

/-- R102 with the spec's D7 for PC and record (log 7): a byte of no row takes the fault and nothing else changes. -/
def Obligations.UnrecognizedOpcodeFaults : Prop :=
  ∀ s : State, s.runState = .running → (∀ m, s.readMem s.pc ≠ opcodeOf m) →
    step s = .next (s.raise (.unrecognizedOpcode s.pc (s.readMem s.pc)))

/-- R101, R105, R106: a step takes a fault only for one of the two causes, and the record says which. -/
def Obligations.FaultsOnlyForTheirCauses : Prop :=
  ∀ (s t : State) (f : FaultRecord), s.runState = .running → step s = .next t → t.runState = .faulted f →
    ((∀ m, s.readMem s.pc ≠ opcodeOf m) ∧ f = .unrecognizedOpcode s.pc (s.readMem s.pc)) ∨
    (∃ i a, decode (s.readMem s.pc) (s.readMem (s.pc + 1)) (s.readMem (s.pc + 2)) = .instr i ∧
      i.firstBadOperand = some a ∧ f = .registerIndexOutOfRange s.pc (s.readMem s.pc) a)

/-- R24, whole: the initial state, that only HLT enters Halted, that Faulted is entered only through `raise`, that no step
leaves a terminal state, and that reset does. -/
def Obligations.RunStateTransitions : Prop :=
  (State.reset.runState = .running ∧ State.reset.pc = 0) ∧
  (∀ s : State, (resetPort s).runState = .running) ∧
  (∀ s t : State, step s = .next t →
    (s.runState ≠ .running → t.runState = s.runState) ∧
    (s.runState = .running → t.runState = .halted →
      decode (s.readMem s.pc) (s.readMem (s.pc + 1)) (s.readMem (s.pc + 2)) = .instr .hlt) ∧
    (∀ f, s.runState = .running → t.runState = .faulted f → t = s.raise f))

/-- R67, the spec's D16 (log 11): a step in a terminal state does nothing. -/
def Obligations.TerminalStepDoesNothing : Prop :=
  ∀ s : State, s.runState ≠ .running → step s = .next s

/-- The pseudocode of R64 has no outcome but a next state: no step of any state is refused or stops (log 19). -/
def Obligations.EveryStepAnswersNext : Prop :=
  ∀ s : State, ∃ t, step s = .next t

/-! ### The step -/

/-- R64: a step of a running machine runs the instruction that the three bytes at PC, PC+1, PC+2 decode to. The wrap of the
two later addresses is the spec's D2 (log 3). -/
def Obligations.StepRunsDecoded : Prop :=
  ∀ (s : State) (i : Instr), s.runState = .running →
    decode (s.readMem s.pc) (s.readMem (s.pc + 1)) (s.readMem (s.pc + 2)) = .instr i → step s = exec i s

/-- R65, whole: an instruction that is not PC-setting and passes the operand check ends its step with PC advanced from the
value at fetch by `1 + IR[7:6]` modulo 256; HLT does so before the core halts. -/
def Obligations.AutomaticAdvance : Prop :=
  ∀ (s : State) (i : Instr), s.runState = .running →
    decode (s.readMem s.pc) (s.readMem (s.pc + 1)) (s.readMem (s.pc + 2)) = .instr i →
    i.wellFormed = true → i.mnemonic ∉ [.call, .ret, .jmp, .jeq, .jne] →
    ∃ t, step s = .next t ∧ t.pc.toNat = (s.pc.toNat + 1 + (s.readMem s.pc).toNat / 64) % 256 ∧
      (i = .hlt → t.runState = .halted ∧ t.pc = s.pc + 1)

/-- R58, whole: the three bytes every step fetches; that the reads have no side effects, for the step of a running machine
hands the instruction the unchanged state; and that a fetched byte the instruction does not use changes nothing, for with
any other byte in its place the step runs the same instruction. -/
def Obligations.OperandPrefetchHarmless : Prop :=
  (∀ s : State, fetchWindow s = ⟨s.readMem s.pc, s.readMem (s.pc + 1), s.readMem (s.pc + 2)⟩) ∧
  (∀ (s : State) (i : Instr), s.runState = .running → fetchDecode s = .instr i → step s = exec i s) ∧
  (∀ (s : State) (i : Instr) (v : Byte), fetchDecode s = .instr i →
    ((encode i).length = 1 → fetchDecode (s.writeMem (s.pc + 1) v) = .instr i ∧
      (s.runState = .running → step (s.writeMem (s.pc + 1) v) = exec i (s.writeMem (s.pc + 1) v))) ∧
    ((encode i).length ≤ 2 → fetchDecode (s.writeMem (s.pc + 2) v) = .instr i ∧
      (s.runState = .running → step (s.writeMem (s.pc + 2) v) = exec i (s.writeMem (s.pc + 2) v))))

/-- R50 and R126, the spec's D11 (log 21): a PUSH runs with the bytes already fetched, wherever it writes, and a later fetch
at that address sees the byte. -/
def Obligations.FetchSeesEarlierStores : Prop :=
  ∀ (s : State) (r : RegIndex), s.runState = .running → fetchDecode s = .instr (.push (regOperand r)) → r ≠ 7 →
    ∃ t, step s = .next t ∧ t.pc = s.pc + 2 ∧
      ∀ u : State, u.mem = t.mem → u.pc = s.sp - 1 → (fetchWindow u).ir = s.reg r

/-! ### Who reads and writes what -/

/-- R22, whole: only CMP writes FL; after it at most one flag is set and the old value does not matter; no instruction but JEQ
and JNE reads FL, and they read of it only E; and they do read E, for where the register's value is not PC plus 2, another E
alone gives another next PC. -/
def Obligations.FlagsReadersAndWriters : Prop :=
  (∀ (i : Instr) (s t : State), exec i s = .next t → i.mnemonic ≠ .cmp → t.fl = s.fl) ∧
  (∀ (ra rb : RegIndex) (s : State) (f : Byte), ∃ t u, exec (.cmp (regOperand ra) (regOperand rb)) s = .next t ∧
    exec (.cmp (regOperand ra) (regOperand rb)) (s.setFl f) = .next u ∧ u = t ∧
    ¬(t.flagE = true ∧ t.flagG = true) ∧ ¬(t.flagE = true ∧ t.flagL = true) ∧ ¬(t.flagG = true ∧ t.flagL = true)) ∧
  (∀ (i : Instr) (s t : State) (f : Byte), exec i s = .next t →
    ((s.setFl f).flagE = s.flagE ∨ i.mnemonic ∉ [.jeq, .jne]) →
    ∃ u, exec i (s.setFl f) = .next u ∧ u.setFl t.fl = t) ∧
  (∀ (r : RegIndex) (s : State) (f : Byte) (i : Instr), i ∈ [.jeq (regOperand r), .jne (regOperand r)] →
    s.reg r ≠ s.pc + 2 → (s.setFl f).flagE ≠ s.flagE →
    ∃ t u, exec i s = .next t ∧ exec i (s.setFl f) = .next u ∧ u.pc ≠ t.pc)

/-- R77's "A JEQ or JNE after an ADD therefore tests the result of the last CMP" (marked derived there), for any instructions
but CMP in between; the unsigned order plays no part. -/
def Obligations.BranchTestsLastCompare : Prop :=
  ∀ (ra rb r : RegIndex) (is : List Instr) (s t : State), (∀ i ∈ is, i.mnemonic ≠ .cmp) →
    execAll (.cmp (regOperand ra) (regOperand rb) :: is) s = .next t →
    ∃ u v, exec (.jeq (regOperand r)) t = .next u ∧ exec (.jne (regOperand r)) t = .next v ∧
      u.pc = (if s.reg ra = s.reg rb then t.reg r else t.pc + 2) ∧
      v.pc = (if s.reg ra = s.reg rb then t.pc + 2 else t.reg r)

/-- R35: every byte a PRN emits is appended once and nothing else is; the core never reads OUT. -/
def Obligations.OutputAppendsOncePerPrn : Prop :=
  ∀ s t : State, step s = .next t → ∃ e, t.out = s.out ++ e ∧
    (∀ r, s.runState = .running → fetchDecode s = .instr (.prn (regOperand r)) → e = [s.reg r]) ∧
    (e ≠ [] → s.runState = .running ∧ ∃ r, fetchDecode s = .instr (.prn (regOperand r))) ∧
    (∀ s' : State, s' = { s with out := s'.out } → ∃ t', step s' = .next t' ∧ t' = { t with out := s'.out ++ e })

/-- The table of R16 (marked derived there): an instruction writes no register but those of its row, and the registers
outside its row's reads change nothing of what it does. -/
def Obligations.RegisterReadersAndWriters : Prop :=
  (∀ (i : Instr) (s t : State), exec i s = .next t → SameRegistersExcept (regsWritten i) s t) ∧
  (∀ (i : Instr) (s t s' : State), exec i s = .next t → s' = { s with regs := s'.regs } →
    (∀ r ∈ regsRead s.flagE i, s'.reg r = s.reg r) →
    ∃ t', exec i s' = .next t' ∧ t'.mem = t.mem ∧ t'.pc = t.pc ∧ SameFlagsRunOut t t' ∧
      ∀ r ∈ regsWritten i, t'.reg r = t.reg r)

/-- R37 (b), (c) and R82 (marked derived there): only PUSH and CALL write memory, and only the cell below SP; only POP and RET
read memory, and only the cell at SP. -/
def Obligations.MemoryReadersAndWriters : Prop :=
  (∀ (i : Instr) (s t : State), exec i s = .next t →
    (i.mnemonic ∉ [.push, .call] → SameMemoryExcept [] s t) ∧ SameMemoryExcept [s.sp - 1] s t) ∧
  (∀ (i : Instr) (s t s' : State), exec i s = .next t → s' = { s with mem := s'.mem } →
    (i.mnemonic ∈ [.pop, .ret] → s'.readMem s.sp = s.readMem s.sp) →
    ∃ t', exec i s' = .next t' ∧ t'.regs = t.regs ∧ t'.pc = t.pc ∧ SameFlagsRunOut t t')

/-! ### Encoding -/

/-- R53, whole: one opcode byte and 0, 1 or 2 operand bytes, their number in its top two bits; the length is told from the
opcode byte alone. -/
def Obligations.LengthFromOpcode : Prop :=
  (∀ i : Instr, ∃ ir operands, encode i = ir :: operands ∧ operands.length ≤ 2 ∧ operands.length = ir.toNat / 64 ∧
    (encode i).length = 1 + ir.toNat / 64) ∧
  (∀ (ir a b a' b' : Byte) (i j : Instr), decode ir a b = .instr i → decode ir a' b' = .instr j →
    (encode i).length = (encode j).length)

/-- R56, R59, R60: decode and encode agree, both ways, for every instruction and every operand byte: three fetched bytes
decode to an instruction exactly when they begin with its encoding. The ten opcode bytes of D1 are the spec's own (log 1);
the statement holds whatever they are, so long as they differ. -/
def Obligations.DecodeEncodeAgree : Prop :=
  ∀ i : Instr, (encode i).length ≤ 3 ∧
    ∀ ir a b : Byte, decode ir a b = .instr i ↔ encode i <+: [ir, a, b]

/-- R60's map, a word of each row. Ten of the values are the spec's D1 (log 1). -/
def Obligations.OpcodeMapWords : Prop :=
  decode 0b00000001 0x12 0x34 = .instr .hlt ∧
  decode 0b10000010 0b00000000 0b00001000 = .instr (.ldi 0 8) ∧
  decode 0b01000111 0b00000000 0x34 = .instr (.prn 0) ∧
  decode 0b10100010 0b00000001 0b00000010 = .instr (.mul 1 2) ∧
  decode 0b10100000 0b00000001 0b00000010 = .instr (.add 1 2) ∧
  decode 0b01000101 0b00000111 0x34 = .instr (.push 7) ∧
  decode 0b01000110 0b00000110 0x34 = .instr (.pop 6) ∧
  decode 0b01010000 0b00000001 0x34 = .instr (.call 1) ∧
  decode 0b00010001 0x12 0x34 = .instr .ret ∧
  decode 0b10100111 0b00000011 0b00000100 = .instr (.cmp 3 4) ∧
  decode 0b01010100 0b00000101 0x34 = .instr (.jmp 5) ∧
  decode 0b01010101 0b00000101 0x34 = .instr (.jeq 5) ∧
  decode 0b01010110 0b00000101 0x34 = .instr (.jne 5)

/-- R61 and R54: exactly the listed bytes are unrecognized, whatever follows them. They depend on D1 (log 1). -/
def Obligations.UnrecognizedBytes : Prop :=
  ∀ ir a b : Byte, decode ir a b = .unrecognizedOpcode ir ↔
    ir.toNat = 0x00 ∨ (0x02 ≤ ir.toNat ∧ ir.toNat ≤ 0x10) ∨ (0x12 ≤ ir.toNat ∧ ir.toNat ≤ 0x44) ∨
    (0x48 ≤ ir.toNat ∧ ir.toNat ≤ 0x4F) ∨ (0x51 ≤ ir.toNat ∧ ir.toNat ≤ 0x53) ∨
    (0x57 ≤ ir.toNat ∧ ir.toNat ≤ 0x81) ∨ (0x83 ≤ ir.toNat ∧ ir.toNat ≤ 0x9F) ∨ ir.toNat = 0xA1 ∨
    (0xA3 ≤ ir.toNat ∧ ir.toNat ≤ 0xA6) ∨ 0xA8 ≤ ir.toNat

/-- R55's descriptive layout (GK3, from general knowledge) and the sets-PC column of R60 (C2, log 14): in every row bit 5
marks the ALU instructions and bit 4 the PC-setting ones. -/
def Obligations.OpcodeBitLayout : Prop :=
  ∀ m : Mnemonic, (opcodeOf m).getLsbD 4 = setsPc m ∧
    ((opcodeOf m).getLsbD 5 = true ↔ m ∈ [.add, .mul, .cmp])

/-- The numbering of the opcode table and the fetch agree (log 16): the word placed for the next step is the instruction the
step runs, and nothing else of the state but memory and the run state is touched. -/
def Obligations.PlacedWordRuns : Prop :=
  ∀ (s : State) (nbits w : Nat) (i : Instr), decodeTableWord nbits w = some i →
    step (s.withFetchWord nbits w) = exec i (s.withFetchWord nbits w) ∧
    (s.withFetchWord nbits w).regs = s.regs ∧ (s.withFetchWord nbits w).pc = s.pc ∧
    (s.withFetchWord nbits w).fl = s.fl ∧ (s.withFetchWord nbits w).out = s.out

/-! ### Reset, the invariant, memory -/

/-- The reset values of R31 and R120. SP's 0xF4 is the spec's D6 (log 6) and the empty OUT its D20 (log 13). -/
def Obligations.ResetValues : Prop :=
  ∀ s : State, (∀ a, (resetPort s).readMem a = 0) ∧ (∀ r : RegIndex, r ≠ 7 → (resetPort s).reg r = 0) ∧
    (resetPort s).sp = 0xF4 ∧ (resetPort s).pc = 0 ∧ (resetPort s).fl = 0 ∧
    (resetPort s).runState = .running ∧ (resetPort s).out = []

/-- The invariant holds after reset. -/
def Obligations.ResetInvariant : Prop := StateInv State.reset

/-- Every step keeps the invariant: memory in canonical form (log 18), at most one flag set and the reserved bits 0 (R21,
R23), and a terminal run state that tells the truth about its cause (R78, R102, R103). -/
def Obligations.StepKeepsInvariant : Prop :=
  ∀ s t : State, StateInv s → step s = .next t → StateInv t

/-- Canonical memories that read the same are the same data (log 18). -/
def Obligations.MemoryCanonical : Prop :=
  ∀ m n : Memory, Memory.wf m → Memory.wf n → (∀ a, Memory.read m a = Memory.read n a) → m = n

/-- R48 and R43: the most recent write to a cell is what it holds, and writes to different cells do not interfere, as equality
of states. -/
def Obligations.WritesCompose : Prop :=
  ∀ (s : State) (a b v w : Byte), Memory.wf s.mem →
    (s.writeMem a v).writeMem a w = s.writeMem a w ∧
    s.writeMem a (s.readMem a) = s ∧
    (a ≠ b → (s.writeMem a v).writeMem b w = (s.writeMem b w).writeMem a v)

/-! ### Ports and runs -/

/-- R44 to R46 (the refusal and the "ignore" elements are the spec's D9, log 9). -/
def Obligations.LoadWritesFromZero : Prop :=
  (∀ seq, loadValues seq = seq.filterMap (fun x => match x with | .byte v => some v | .ignore => none)) ∧
  (∀ (seq : List LoadItem) (s : State), 256 < (loadValues seq).length → loadPort seq s = .refused .loadOverflow) ∧
  (∀ (seq : List LoadItem) (s : State), (loadValues seq).length ≤ 256 → ∃ t, loadPort seq s = .next t ∧
    (∀ k (h : k < (loadValues seq).length), t.readMem (BitVec.ofNat 8 k) = (loadValues seq)[k]) ∧
    (∀ a : Byte, (loadValues seq).length ≤ a.toNat → t.readMem a = s.readMem a) ∧
    t.regs = s.regs ∧ t.pc = s.pc ∧ SameFlagsRunOut s t)

/-- R33, the spec's D12 (log 10): what the accessors accept, what they do, and that they refuse the rest. -/
def Obligations.HostAccessors : Prop :=
  (∀ (n : Nat) (s : State), (readMemory n s = if n < 256 then .ok (s.readMem (BitVec.ofNat 8 n)) else .error .hostRequestOutOfRange)) ∧
  (∀ (n v : Nat) (s : State), n < 256 → v < 256 → ∃ t, writeMemory n v s = .next t ∧
    t.readMem (BitVec.ofNat 8 n) = BitVec.ofNat 8 v ∧ SameMemoryExcept [BitVec.ofNat 8 n] s t ∧ t.regs = s.regs ∧
    t.pc = s.pc ∧ SameFlagsRunOut s t) ∧
  (∀ (n v : Nat) (s : State), 256 ≤ n ∨ 256 ≤ v → writeMemory n v s = .refused .hostRequestOutOfRange) ∧
  (∀ (r : RegIndex) (s : State), readRegister r.val s = .ok (s.reg r)) ∧
  (∀ (r : RegIndex) (v : Nat) (s : State), v < 256 → ∃ t, writeRegister r.val v s = .next t ∧
    t.reg r = BitVec.ofNat 8 v ∧ SameRegistersExcept [r] s t ∧ t.mem = s.mem ∧ t.pc = s.pc ∧ SameFlagsRunOut s t) ∧
  (∀ (n v : Nat) (s : State), 8 ≤ n → readRegister n s = .error .hostRequestOutOfRange ∧
    writeRegister n v s = .refused .hostRequestOutOfRange) ∧
  (∀ (n v : Nat) (s : State), 256 ≤ v → writeRegister n v s = .refused .hostRequestOutOfRange)

/-- R88 (marked derived there). Pushes of k registers other than R7, k at most 256, complete and write only SP and the k
cells below it. From ANY state that has SP and those cells as the pushes left them ("with no other write to `SP` or to the
cells used between them"; its registers, flags and other cells are free) the matching pops complete, give each register
popped the value pushed from it, bring SP back, and change nothing else. -/
def Obligations.PushesThenPopsRestore : Prop :=
  ∀ (rs : List RegIndex) (s : State), 7 ∉ rs → rs.length ≤ 256 →
    ∃ t, execAll (rs.map (fun r => .push (regOperand r))) s = .next t ∧
      SameRegistersExcept [7] s t ∧ SameFlagsRunOut s t ∧
      (∀ a, (∀ k < rs.length, a ≠ s.sp - BitVec.ofNat 8 (k + 1)) → t.readMem a = s.readMem a) ∧
      ∀ u : State, u.sp = t.sp →
        (∀ k < rs.length, u.readMem (s.sp - BitVec.ofNat 8 (k + 1)) = t.readMem (s.sp - BitVec.ofNat 8 (k + 1))) →
        ∃ v, execAll (rs.reverse.map (fun r => .pop (regOperand r))) u = .next v ∧
          (∀ r ∈ rs, v.reg r = s.reg r) ∧ v.sp = s.sp ∧
          SameRegistersExcept (7 :: rs) u v ∧ SameMemoryExcept [] u v ∧ SameFlagsRunOut u v

/-- R68 and R128 (the spec's D16, log 11): a run returns with one state only, or it goes on for ever, and not both. -/
def Obligations.RunEndsOnceOrNever : Prop :=
  ∀ s : State, (∀ t u, RunEndsIn s t → RunEndsIn s u → t = u) ∧ (RunsForever s ↔ ¬ ∃ t, RunEndsIn s t)

/-- R92's "a one-instruction infinite loop, which `run` never leaves", on every state that meets it. -/
def Obligations.SelfJumpRunsForever : Prop :=
  ∀ (s : State) (r : RegIndex), s.runState = .running → fetchDecode s = .instr (.jmp (regOperand r)) → s.reg r = s.pc →
    step s = .next s ∧ RunsForever s
end

