-- ==== Sys2Proof/Laws/State.lean ====
section
/-! SUPPORT. One lemma per field per update of State, and how registers and memory read after each update. -/

namespace Sys2Proof.Machine

/-! ### setReg -/

@[simp] theorem State.setReg_mem (s : State) (r : RegIndex) (v : Byte) : (s.setReg r v).mem = s.mem := rfl
@[simp] theorem State.setReg_regs (s : State) (r : RegIndex) (v : Byte) : (s.setReg r v).regs = s.regs.set r.val v := rfl
@[simp] theorem State.setReg_pc (s : State) (r : RegIndex) (v : Byte) : (s.setReg r v).pc = s.pc := rfl
@[simp] theorem State.setReg_fl (s : State) (r : RegIndex) (v : Byte) : (s.setReg r v).fl = s.fl := rfl
@[simp] theorem State.setReg_runState (s : State) (r : RegIndex) (v : Byte) : (s.setReg r v).runState = s.runState := rfl
@[simp] theorem State.setReg_out (s : State) (r : RegIndex) (v : Byte) : (s.setReg r v).out = s.out := rfl

@[simp] theorem State.readMem_setReg (s : State) (r : RegIndex) (v : Byte) (c : Byte) : (s.setReg r v).readMem c = s.readMem c := rfl
@[simp] theorem State.flagE_setReg (s : State) (r : RegIndex) (v : Byte) : (s.setReg r v).flagE = s.flagE := rfl

/-! ### setPc -/

@[simp] theorem State.setPc_mem (s : State) (v : Byte) : (s.setPc v).mem = s.mem := rfl
@[simp] theorem State.setPc_regs (s : State) (v : Byte) : (s.setPc v).regs = s.regs := rfl
@[simp] theorem State.setPc_pc (s : State) (v : Byte) : (s.setPc v).pc = v := rfl
@[simp] theorem State.setPc_fl (s : State) (v : Byte) : (s.setPc v).fl = s.fl := rfl
@[simp] theorem State.setPc_runState (s : State) (v : Byte) : (s.setPc v).runState = s.runState := rfl
@[simp] theorem State.setPc_out (s : State) (v : Byte) : (s.setPc v).out = s.out := rfl

@[simp] theorem State.reg_setPc (s : State) (v : Byte) (q : RegIndex) : (s.setPc v).reg q = s.reg q := rfl
@[simp] theorem State.sp_setPc (s : State) (v : Byte) : (s.setPc v).sp = s.sp := rfl
@[simp] theorem State.readMem_setPc (s : State) (v : Byte) (c : Byte) : (s.setPc v).readMem c = s.readMem c := rfl
@[simp] theorem State.flagE_setPc (s : State) (v : Byte) : (s.setPc v).flagE = s.flagE := rfl

/-! ### setFl -/

@[simp] theorem State.setFl_mem (s : State) (v : Byte) : (s.setFl v).mem = s.mem := rfl
@[simp] theorem State.setFl_regs (s : State) (v : Byte) : (s.setFl v).regs = s.regs := rfl
@[simp] theorem State.setFl_pc (s : State) (v : Byte) : (s.setFl v).pc = s.pc := rfl
@[simp] theorem State.setFl_fl (s : State) (v : Byte) : (s.setFl v).fl = v := rfl
@[simp] theorem State.setFl_runState (s : State) (v : Byte) : (s.setFl v).runState = s.runState := rfl
@[simp] theorem State.setFl_out (s : State) (v : Byte) : (s.setFl v).out = s.out := rfl

@[simp] theorem State.reg_setFl (s : State) (v : Byte) (q : RegIndex) : (s.setFl v).reg q = s.reg q := rfl
@[simp] theorem State.sp_setFl (s : State) (v : Byte) : (s.setFl v).sp = s.sp := rfl
@[simp] theorem State.readMem_setFl (s : State) (v : Byte) (c : Byte) : (s.setFl v).readMem c = s.readMem c := rfl

/-! ### setRunState -/

@[simp] theorem State.setRunState_mem (s : State) (v : RunState) : (s.setRunState v).mem = s.mem := rfl
@[simp] theorem State.setRunState_regs (s : State) (v : RunState) : (s.setRunState v).regs = s.regs := rfl
@[simp] theorem State.setRunState_pc (s : State) (v : RunState) : (s.setRunState v).pc = s.pc := rfl
@[simp] theorem State.setRunState_fl (s : State) (v : RunState) : (s.setRunState v).fl = s.fl := rfl
@[simp] theorem State.setRunState_runState (s : State) (v : RunState) : (s.setRunState v).runState = v := rfl
@[simp] theorem State.setRunState_out (s : State) (v : RunState) : (s.setRunState v).out = s.out := rfl

@[simp] theorem State.reg_setRunState (s : State) (v : RunState) (q : RegIndex) : (s.setRunState v).reg q = s.reg q := rfl
@[simp] theorem State.sp_setRunState (s : State) (v : RunState) : (s.setRunState v).sp = s.sp := rfl
@[simp] theorem State.readMem_setRunState (s : State) (v : RunState) (c : Byte) : (s.setRunState v).readMem c = s.readMem c := rfl
@[simp] theorem State.flagE_setRunState (s : State) (v : RunState) : (s.setRunState v).flagE = s.flagE := rfl

/-! ### emit -/

@[simp] theorem State.emit_mem (s : State) (v : Byte) : (s.emit v).mem = s.mem := rfl
@[simp] theorem State.emit_regs (s : State) (v : Byte) : (s.emit v).regs = s.regs := rfl
@[simp] theorem State.emit_pc (s : State) (v : Byte) : (s.emit v).pc = s.pc := rfl
@[simp] theorem State.emit_fl (s : State) (v : Byte) : (s.emit v).fl = s.fl := rfl
@[simp] theorem State.emit_runState (s : State) (v : Byte) : (s.emit v).runState = s.runState := rfl
@[simp] theorem State.emit_out (s : State) (v : Byte) : (s.emit v).out = s.out ++ [v] := rfl

@[simp] theorem State.reg_emit (s : State) (v : Byte) (q : RegIndex) : (s.emit v).reg q = s.reg q := rfl
@[simp] theorem State.sp_emit (s : State) (v : Byte) : (s.emit v).sp = s.sp := rfl
@[simp] theorem State.readMem_emit (s : State) (v : Byte) (c : Byte) : (s.emit v).readMem c = s.readMem c := rfl
@[simp] theorem State.flagE_emit (s : State) (v : Byte) : (s.emit v).flagE = s.flagE := rfl

/-! ### writeMem -/

@[simp] theorem State.writeMem_mem (s : State) (a v : Byte) : (s.writeMem a v).mem = Memory.write s.mem a.toNat v := rfl
@[simp] theorem State.writeMem_regs (s : State) (a v : Byte) : (s.writeMem a v).regs = s.regs := rfl
@[simp] theorem State.writeMem_pc (s : State) (a v : Byte) : (s.writeMem a v).pc = s.pc := rfl
@[simp] theorem State.writeMem_fl (s : State) (a v : Byte) : (s.writeMem a v).fl = s.fl := rfl
@[simp] theorem State.writeMem_runState (s : State) (a v : Byte) : (s.writeMem a v).runState = s.runState := rfl
@[simp] theorem State.writeMem_out (s : State) (a v : Byte) : (s.writeMem a v).out = s.out := rfl

@[simp] theorem State.reg_writeMem (s : State) (a v : Byte) (q : RegIndex) : (s.writeMem a v).reg q = s.reg q := rfl
@[simp] theorem State.sp_writeMem (s : State) (a v : Byte) : (s.writeMem a v).sp = s.sp := rfl
@[simp] theorem State.flagE_writeMem (s : State) (a v : Byte) : (s.writeMem a v).flagE = s.flagE := rfl

/-! ### raise -/

@[simp] theorem State.raise_mem (s : State) (f : FaultRecord) : (s.raise f).mem = s.mem := rfl
@[simp] theorem State.raise_regs (s : State) (f : FaultRecord) : (s.raise f).regs = s.regs := rfl
@[simp] theorem State.raise_pc (s : State) (f : FaultRecord) : (s.raise f).pc = s.pc := rfl
@[simp] theorem State.raise_fl (s : State) (f : FaultRecord) : (s.raise f).fl = s.fl := rfl
@[simp] theorem State.raise_runState (s : State) (f : FaultRecord) : (s.raise f).runState = .faulted f := rfl
@[simp] theorem State.raise_out (s : State) (f : FaultRecord) : (s.raise f).out = s.out := rfl

@[simp] theorem State.reg_raise (s : State) (f : FaultRecord) (q : RegIndex) : (s.raise f).reg q = s.reg q := rfl
@[simp] theorem State.sp_raise (s : State) (f : FaultRecord) : (s.raise f).sp = s.sp := rfl
@[simp] theorem State.readMem_raise (s : State) (f : FaultRecord) (c : Byte) : (s.raise f).readMem c = s.readMem c := rfl
@[simp] theorem State.flagE_raise (s : State) (f : FaultRecord) : (s.raise f).flagE = s.flagE := rfl

/-! ### endStep -/

theorem State.endStep_pc (s : State) (m : Mnemonic) :
    (s.endStep m).pc = if setsPc m then s.pc else s.pc + instrLength (opcodeOf m) := by
  unfold State.endStep; split <;> rfl

@[simp] theorem State.endStep_mem (s : State) (m : Mnemonic) : (s.endStep m).mem = s.mem := by
  unfold State.endStep; split <;> rfl
@[simp] theorem State.endStep_regs (s : State) (m : Mnemonic) : (s.endStep m).regs = s.regs := by
  unfold State.endStep; split <;> rfl
@[simp] theorem State.endStep_fl (s : State) (m : Mnemonic) : (s.endStep m).fl = s.fl := by
  unfold State.endStep; split <;> rfl
@[simp] theorem State.endStep_runState (s : State) (m : Mnemonic) : (s.endStep m).runState = s.runState := by
  unfold State.endStep; split <;> rfl
@[simp] theorem State.endStep_out (s : State) (m : Mnemonic) : (s.endStep m).out = s.out := by
  unfold State.endStep; split <;> rfl
@[simp] theorem State.reg_endStep (s : State) (m : Mnemonic) (q : RegIndex) : (s.endStep m).reg q = s.reg q := by
  simp [State.reg]
@[simp] theorem State.sp_endStep (s : State) (m : Mnemonic) : (s.endStep m).sp = s.sp := State.reg_endStep _ _ _
@[simp] theorem State.readMem_endStep (s : State) (m : Mnemonic) (a : Byte) : (s.endStep m).readMem a = s.readMem a := by
  simp [State.readMem]
@[simp] theorem State.flagE_endStep (s : State) (m : Mnemonic) : (s.endStep m).flagE = s.flagE := by
  simp [State.flagE]

/-! ### Registers: a read after a write -/

theorem State.reg_setReg (s : State) (r q : RegIndex) (v : Byte) :
    (s.setReg r v).reg q = if q = r then v else s.reg q := by
  simp only [State.reg, State.setReg, Vector.getElem_set, Fin.ext_iff, eq_comm]

@[simp] theorem State.reg_setReg_same (s : State) (r : RegIndex) (v : Byte) : (s.setReg r v).reg r = v := by
  simp [State.reg_setReg]

theorem State.reg_setReg_other (s : State) {r q : RegIndex} (v : Byte) (h : q ≠ r) :
    (s.setReg r v).reg q = s.reg q := by
  simp [State.reg_setReg, h]

theorem State.reg_spIndex (s : State) : s.reg Config.spIndex = s.sp := rfl

@[simp] theorem State.sp_setSp (s : State) (v : Byte) : (s.setSp v).sp = v :=
  State.reg_setReg_same s Config.spIndex v

theorem State.reg_setSp (s : State) (q : RegIndex) (v : Byte) :
    (s.setSp v).reg q = if q = Config.spIndex then v else s.reg q :=
  State.reg_setReg s Config.spIndex q v

/-- Two register files that read the same are the same. -/
theorem State.regs_ext {s t : State} (h : ∀ q : RegIndex, t.reg q = s.reg q) : t.regs = s.regs :=
  Vector.ext fun i hi => h ⟨i, hi⟩

end Sys2Proof.Machine
end

