-- ==== Sys2Proof/Laws/Alu.lean ====
section
/-! SUPPORT. What the ALU and CMP's flag computation can do. -/

namespace Sys2Proof.Machine

/-! ### The ALU writes one register (ADD, MUL) or FL (CMP) and nothing else (R71) -/

@[simp] theorem alu_mem (op : AluOp) (a b : RegIndex) (s : State) : (alu op a b s).mem = s.mem := by cases op <;> rfl
@[simp] theorem alu_pc (op : AluOp) (a b : RegIndex) (s : State) : (alu op a b s).pc = s.pc := by cases op <;> rfl
@[simp] theorem alu_runState (op : AluOp) (a b : RegIndex) (s : State) : (alu op a b s).runState = s.runState := by
  cases op <;> rfl
@[simp] theorem alu_out (op : AluOp) (a b : RegIndex) (s : State) : (alu op a b s).out = s.out := by cases op <;> rfl
@[simp] theorem readMem_alu (op : AluOp) (a b : RegIndex) (s : State) (c : Byte) :
    (alu op a b s).readMem c = s.readMem c := by cases op <;> rfl

theorem alu_fl (op : AluOp) (a b : RegIndex) (s : State) :
    (alu op a b s).fl = if op = .cmp then compareFlags (s.reg a) (s.reg b) else s.fl := by cases op <;> rfl

theorem reg_alu_other (op : AluOp) (b : RegIndex) (s : State) {a q : RegIndex} (h : q ≠ a) :
    (alu op a b s).reg q = s.reg q := by
  cases op
  · exact State.reg_setReg_other s _ h
  · exact State.reg_setReg_other s _ h
  · rfl

/-! ### CMP's flag computation (R74) -/

theorem compareFlags_equal (x : Byte) : compareFlags x x = flEqual := if_pos rfl

theorem compareFlags_greater {x y : Byte} (h : y.toNat < x.toNat) : compareFlags x y = flGreater := by
  have hne : x ≠ y := fun e => by subst e; omega
  simp [compareFlags, hne, h]

theorem compareFlags_less {x y : Byte} (h : x.toNat < y.toNat) : compareFlags x y = flLess := by
  have hne : x ≠ y := fun e => by subst e; omega
  have hle : ¬y.toNat < x.toNat := by omega
  simp [compareFlags, hne, hle]

/-- CMP leaves FL legal. -/
theorem legalFlags_compareFlags (x y : Byte) : legalFlags (compareFlags x y) := by
  unfold compareFlags legalFlags
  split
  · simp
  · split <;> simp

end Sys2Proof.Machine
end

