-- ==== Sys2Proof/Laws/Decode.lean ====
section
/-! SUPPORT. The laws of the encoding tables and of the register-operand check. -/

namespace Sys2Proof

/-! ### The opcode map -/

theorem mem_allMnemonics (m : Mnemonic) : m ∈ allMnemonics := by cases m <;> decide

/-- No two rows of the opcode map share a byte. -/
theorem opcodeOf_injective {m n : Mnemonic} (h : opcodeOf m = opcodeOf n) : m = n := by
  revert h
  cases m <;> cases n <;> decide

@[simp] theorem decodeMnemonic_opcodeOf (m : Mnemonic) : decodeMnemonic (opcodeOf m) = some m := by
  cases m <;> decide

theorem decodeMnemonic_eq_some {ir : Byte} {m : Mnemonic} : decodeMnemonic ir = some m ↔ ir = opcodeOf m := by
  constructor
  · intro h
    unfold decodeMnemonic at h
    have hm : (opcodeOf m == ir) = true := by simpa using List.find?_some h
    exact (eq_of_beq hm).symm
  · rintro rfl
    exact decodeMnemonic_opcodeOf m

theorem decodeMnemonic_eq_none {ir : Byte} : decodeMnemonic ir = none ↔ ∀ m, ir ≠ opcodeOf m := by
  rw [Option.eq_none_iff_forall_ne_some]
  exact forall_congr' fun m => not_congr decodeMnemonic_eq_some

/-- How many operand bytes a format has (R56). -/
def formatOperands : Format → Nat
  | .f0 => 0
  | .f1r => 1
  | .f2ri => 2
  | .f2rr => 2

/-- The column of operand counts is `IR[7:6]` (R53, R60). -/
theorem operandCount_opcodeOf (m : Mnemonic) : (operandCount (opcodeOf m)).toNat = formatOperands (formatOf m) := by
  cases m <;> decide

/-! ### Decode and assemble -/

@[simp] theorem mnemonic_assemble (m : Mnemonic) (a b : Byte) : (assemble m a b).mnemonic = m := by cases m <;> rfl

theorem decode_opcodeOf (m : Mnemonic) (a b : Byte) : decode (opcodeOf m) a b = .instr (assemble m a b) := by
  simp [decode]

/-- Everything a successful decode says. -/
theorem decode_eq_instr {ir a b : Byte} {i : Instr} :
    decode ir a b = .instr i ↔ ir = opcodeOf i.mnemonic ∧ i = assemble i.mnemonic a b := by
  constructor
  · intro h
    unfold decode at h
    split at h
    · rename_i m hm
      obtain rfl : assemble m a b = i := by simpa using h
      simpa using decodeMnemonic_eq_some.mp hm
    · simp at h
  · rintro ⟨rfl, hi⟩
    rw [decode_opcodeOf, ← hi]

/-- Everything a rejection says. -/
theorem decode_eq_unrecognizedOpcode {ir a b x : Byte} :
    decode ir a b = .unrecognizedOpcode x ↔ decodeMnemonic ir = none ∧ x = ir := by
  unfold decode
  split
  · rename_i m hm
    simp [hm]
  · rename_i hm
    simp [hm, eq_comm]

end Sys2Proof

namespace Sys2Proof.Machine

/-! ### The register-operand check -/

theorem registerIndex_eq_none {a : Byte} : registerIndex a = none ↔ 8 ≤ a.toNat := by
  unfold registerIndex
  split <;> simp <;> omega

theorem registerIndex_eq_some {a : Byte} {r : RegIndex} : registerIndex a = some r ↔ a = regOperand r := by
  have hr := r.isLt
  unfold registerIndex regOperand
  split
  · rename_i h
    rw [Option.some.injEq, Fin.ext_iff, ← BitVec.toNat_inj]
    simp only [BitVec.toNat_ofNat]
    omega
  · rename_i h
    rw [← BitVec.toNat_inj]
    simp only [BitVec.toNat_ofNat, reduceCtorEq, false_iff]
    omega

@[simp] theorem registerIndex_regOperand (r : RegIndex) : registerIndex (regOperand r) = some r :=
  registerIndex_eq_some.mpr rfl

theorem namesRegister_eq_isSome (a : Byte) : namesRegister a = (registerIndex a).isSome := by
  unfold namesRegister registerIndex
  split <;> simp_all

/-- The forms of the well-formed instructions: a register operand is `regOperand` of some register. -/
theorem wellFormed_cases {i : Instr} (hw : i.wellFormed = true) :
    i = .hlt ∨ i = .ret ∨ (∃ r v, i = .ldi (regOperand r) v) ∨
      (∃ r, i = .prn (regOperand r) ∨ i = .push (regOperand r) ∨ i = .pop (regOperand r) ∨ i = .call (regOperand r) ∨
        i = .jmp (regOperand r) ∨ i = .jeq (regOperand r) ∨ i = .jne (regOperand r)) ∨
      ∃ r q, i = .add (regOperand r) (regOperand q) ∨ i = .mul (regOperand r) (regOperand q) ∨
        i = .cmp (regOperand r) (regOperand q) := by
  have named (x : Byte) (hx : x ∈ i.registerOperands) : ∃ r, x = regOperand r := by
    have hn := List.all_eq_true.mp hw x hx
    rw [namesRegister_eq_isSome] at hn
    obtain ⟨r, hr⟩ := Option.isSome_iff_exists.mp hn
    exact ⟨r, registerIndex_eq_some.mp hr⟩
  cases i with
  | hlt => exact .inl rfl
  | ret => exact .inr (.inl rfl)
  | ldi a v =>
    obtain ⟨r, rfl⟩ := named a (by simp [Instr.registerOperands])
    simp
  | add a b | mul a b | cmp a b =>
    obtain ⟨r, rfl⟩ := named a (by simp [Instr.registerOperands])
    obtain ⟨q, rfl⟩ := named b (by simp [Instr.registerOperands])
    simp
  | prn a | push a | pop a | call a | jmp a | jeq a | jne a =>
    obtain ⟨r, rfl⟩ := named a (by simp [Instr.registerOperands])
    simp

/-- An instruction is well formed exactly when the check finds no bad operand. -/
theorem firstBadOperand_eq_none {i : Instr} : i.firstBadOperand = none ↔ i.wellFormed = true := by
  simp [Instr.firstBadOperand, Instr.wellFormed, List.find?_eq_none]

@[simp] theorem withRegister_regOperand (m : Mnemonic) (r : RegIndex) (s : State)
    (k : RegIndex → Host.Outcome State Fault Refusal) : withRegister m (regOperand r) s k = k r := by
  simp [withRegister]

@[simp] theorem withRegisters_regOperand (m : Mnemonic) (ra rb : RegIndex) (s : State)
    (k : RegIndex → RegIndex → Host.Outcome State Fault Refusal) :
    withRegisters m (regOperand ra) (regOperand rb) s k = k ra rb := by
  simp [withRegisters]

theorem withRegister_bad {m : Mnemonic} {a : Byte} (s : State)
    (k : RegIndex → Host.Outcome State Fault Refusal) (h : 8 ≤ a.toNat) :
    withRegister m a s k = .next (s.raise (.registerIndexOutOfRange s.pc (opcodeOf m) a)) := by
  simp [withRegister, registerIndex_eq_none.mpr h]

/-- Everything the check can do: run the continuation on the named register, or take the fault. -/
theorem withRegister_cases (m : Mnemonic) (a : Byte) (s : State) (k : RegIndex → Host.Outcome State Fault Refusal) :
    (∃ r, a = regOperand r ∧ withRegister m a s k = k r) ∨
      (8 ≤ a.toNat ∧ withRegister m a s k = .next (s.raise (.registerIndexOutOfRange s.pc (opcodeOf m) a))) := by
  cases h : registerIndex a with
  | some r =>
    obtain rfl := registerIndex_eq_some.mp h
    exact .inl ⟨r, rfl, by simp⟩
  | none => exact .inr ⟨registerIndex_eq_none.mp h, withRegister_bad s k (registerIndex_eq_none.mp h)⟩

end Sys2Proof.Machine
end

