-- ==== Sys2Proof/Laws/Memory.lean ====
section
/-! SUPPORT. The laws of memory: a read after a write, the canonical form, and the stack operations built on them. -/

namespace Sys2Proof.Machine

/-! ### Reads after writes, on every list (canonical or not) -/

theorem Memory.read_erase (m : Memory) (a b : Nat) :
    Memory.read (Memory.erase m a) b = if b = a then Memory.unlisted else Memory.read m b := by
  induction m with
  | nil => simp [Memory.erase, Memory.read]
  | cons c m ih =>
    obtain ⟨k, w⟩ := c
    unfold Memory.erase at ih ⊢
    by_cases hk : k = a
    · subst hk
      simp only [List.filter_cons, bne_self_eq_false, Bool.false_eq_true, if_false, ih, Memory.read]
      by_cases hb : b = k <;> simp [hb, eq_comm]
    · simp only [List.filter_cons, bne_iff_ne, ne_eq, hk, not_false_eq_true, if_true, Memory.read, ih]
      by_cases hb : b = a
      · simp [hb, hk]
      · simp [hb]

theorem Memory.read_insert (m : Memory) (a b : Nat) (v : Byte) (h : ∀ c ∈ m, c.1 ≠ a) :
    Memory.read (Memory.insert m a v) b = if b = a then v else Memory.read m b := by
  induction m with
  | nil => simp [Memory.insert, Memory.read, eq_comm]
  | cons c m ih =>
    obtain ⟨k, w⟩ := c
    have hk : k ≠ a := h (k, w) (by simp)
    have ih := ih fun c hc => h c (by simp [hc])
    simp only [Memory.insert]
    split
    · simp [Memory.read, eq_comm]
    · simp only [Memory.read, ih]
      by_cases hb : b = a
      · simp [hb, hk]
      · simp [hb]

theorem Memory.erase_no_key (m : Memory) (a : Nat) : ∀ c ∈ Memory.erase m a, c.1 ≠ a := by
  intro c hc
  simpa using (List.mem_filter.mp hc).2

theorem Memory.read_write (m : Memory) (a b : Nat) (v : Byte) :
    Memory.read (Memory.write m a v) b = if b = a then v else Memory.read m b := by
  unfold Memory.write
  split
  · rename_i hv
    rw [Memory.read_erase, hv]
  · rw [Memory.read_insert _ _ _ _ (Memory.erase_no_key m a), Memory.read_erase]
    by_cases hb : b = a <;> simp [hb]

theorem State.readMem_writeMem (s : State) (a b v : Byte) :
    (s.writeMem a v).readMem b = if b = a then v else s.readMem b := by
  simp only [State.readMem, State.writeMem, Memory.read_write, BitVec.toNat_inj]

@[simp] theorem State.readMem_writeMem_same (s : State) (a v : Byte) : (s.writeMem a v).readMem a = v := by
  simp [State.readMem_writeMem]

theorem State.readMem_writeMem_other (s : State) {a b : Byte} (v : Byte) (h : b ≠ a) :
    (s.writeMem a v).readMem b = s.readMem b := by
  simp [State.readMem_writeMem, h]

/-! ### Every memory operation keeps the canonical form -/

theorem Memory.wf_erase {m : Memory} (a : Nat) (h : Memory.wf m) : Memory.wf (Memory.erase m a) :=
  ⟨h.1.filter _, fun c hc => h.2 c (List.mem_of_mem_filter hc)⟩

theorem Memory.mem_insert {m : Memory} {a : Nat} {v : Byte} {c : Host.Cell}
    (hc : c ∈ Memory.insert m a v) : c = (a, v) ∨ c ∈ m := by
  induction m with
  | nil => simpa [Memory.insert] using hc
  | cons d m ih =>
    simp only [Memory.insert] at hc
    split at hc
    · simpa using hc
    · rcases List.mem_cons.mp hc with rfl | hc
      · simp
      · rcases ih hc with h | h <;> simp [h]

theorem Memory.wf_insert {m : Memory} {a : Nat} {v : Byte} (h : Memory.wf m) (hk : ∀ c ∈ m, c.1 ≠ a)
    (ha : a < Config.memSize) (hv : v ≠ Memory.unlisted) : Memory.wf (Memory.insert m a v) := by
  refine ⟨?_, fun c hc => (Memory.mem_insert hc).elim (fun e => by subst e; exact ⟨ha, hv⟩) (h.2 c)⟩
  obtain ⟨hp, -⟩ := h
  induction m with
  | nil => simp [Memory.insert]
  | cons d m ih =>
    obtain ⟨hd, hp'⟩ := List.pairwise_cons.mp hp
    simp only [Memory.insert]
    split
    · rename_i hlt
      refine List.pairwise_cons.mpr ⟨fun c hc => ?_, hp⟩
      rcases List.mem_cons.mp hc with rfl | hc
      · exact hlt
      · exact hlt.trans (hd c hc)
    · rename_i hge
      have hne : d.1 ≠ a := hk d (by simp)
      refine List.pairwise_cons.mpr ⟨fun c hc => ?_, ih (fun c hc => hk c (by simp [hc])) hp'⟩
      rcases Memory.mem_insert hc with rfl | hc
      · show d.1 < a
        omega
      · exact hd c hc

theorem Memory.wf_write {m : Memory} {a : Nat} (v : Byte) (h : Memory.wf m) (ha : a < Config.memSize) :
    Memory.wf (Memory.write m a v) := by
  unfold Memory.write
  split
  · exact Memory.wf_erase a h
  · rename_i hv
    exact Memory.wf_insert (Memory.wf_erase a h) (Memory.erase_no_key m a) ha hv

theorem State.wf_writeMem {s : State} (a v : Byte) (h : Memory.wf s.mem) : Memory.wf (s.writeMem a v).mem :=
  Memory.wf_write v h a.isLt

theorem State.wf_writeBytes {s : State} (a : Byte) (vs : List Byte) (h : Memory.wf s.mem) :
    Memory.wf (s.writeBytes a vs).mem := by
  induction vs generalizing s a with
  | nil => exact h
  | cons v vs ih => exact ih (a + 1) (State.wf_writeMem a v h)

theorem State.wf_pushByte {s : State} (v : State → Byte) (h : Memory.wf s.mem) : Memory.wf (s.pushByte v).mem :=
  State.wf_writeMem _ _ h

theorem reset_mem_wf : Memory.wf State.reset.mem := by decide

/-! ### What the byte-string store leaves alone -/

@[simp] theorem State.writeBytes_regs (s : State) (a : Byte) (vs : List Byte) : (s.writeBytes a vs).regs = s.regs := by
  induction vs generalizing s a with
  | nil => rfl
  | cons v vs ih => exact ih (s.writeMem a v) (a + 1)

@[simp] theorem State.writeBytes_pc (s : State) (a : Byte) (vs : List Byte) : (s.writeBytes a vs).pc = s.pc := by
  induction vs generalizing s a with
  | nil => rfl
  | cons v vs ih => exact ih (s.writeMem a v) (a + 1)

@[simp] theorem State.writeBytes_fl (s : State) (a : Byte) (vs : List Byte) : (s.writeBytes a vs).fl = s.fl := by
  induction vs generalizing s a with
  | nil => rfl
  | cons v vs ih => exact ih (s.writeMem a v) (a + 1)

@[simp] theorem State.writeBytes_runState (s : State) (a : Byte) (vs : List Byte) :
    (s.writeBytes a vs).runState = s.runState := by
  induction vs generalizing s a with
  | nil => rfl
  | cons v vs ih => exact ih (s.writeMem a v) (a + 1)

@[simp] theorem State.writeBytes_out (s : State) (a : Byte) (vs : List Byte) : (s.writeBytes a vs).out = s.out := by
  induction vs generalizing s a with
  | nil => rfl
  | cons v vs ih => exact ih (s.writeMem a v) (a + 1)

/-- How memory reads after a byte string is stored from address `n` up, with no wrap. -/
theorem State.readMem_writeBytes (vs : List Byte) (s : State) (n : Nat) (hn : n + vs.length ≤ 256) (a : Byte) :
    (s.writeBytes (BitVec.ofNat 8 n) vs).readMem a =
      if h : n ≤ a.toNat ∧ a.toNat < n + vs.length then vs[a.toNat - n]'(by omega) else s.readMem a := by
  induction vs generalizing s n with
  | nil => simp [State.writeBytes]
  | cons v vs ih =>
    simp only [List.length_cons] at hn
    have hadd : (BitVec.ofNat 8 n : Byte) + 1 = BitVec.ofNat 8 (n + 1) := by simp [BitVec.ofNat_add]
    have ha := a.isLt
    simp only [State.writeBytes, hadd]
    rw [ih _ (n + 1) (by omega)]
    by_cases h1 : a.toNat = n
    · have e : a = BitVec.ofNat 8 n := by rw [← BitVec.toNat_inj]; simp; omega
      have h0 : a.toNat - n = 0 := by omega
      rw [dif_neg (by omega), dif_pos (by simp; omega)]
      simp only [h0]
      rw [← e]
      simp
    · have e : a ≠ BitVec.ofNat 8 n := by intro e; apply h1; rw [e]; simp; omega
      by_cases h2 : n + 1 ≤ a.toNat ∧ a.toNat < n + 1 + vs.length
      · have hs : a.toNat - n = a.toNat - (n + 1) + 1 := by omega
        rw [dif_pos h2, dif_pos (by simp; omega)]
        simp [hs]
      · rw [dif_neg h2, dif_neg (by simp; omega), State.readMem_writeMem, if_neg e]

/-! ### The stack operations -/

@[simp] theorem State.pushByte_pc (s : State) (v : State → Byte) : (s.pushByte v).pc = s.pc := rfl
@[simp] theorem State.pushByte_fl (s : State) (v : State → Byte) : (s.pushByte v).fl = s.fl := rfl
@[simp] theorem State.pushByte_runState (s : State) (v : State → Byte) : (s.pushByte v).runState = s.runState := rfl
@[simp] theorem State.pushByte_out (s : State) (v : State → Byte) : (s.pushByte v).out = s.out := rfl

@[simp] theorem State.sp_pushByte (s : State) (v : State → Byte) : (s.pushByte v).sp = s.sp - 1 := by
  simp [State.pushByte]

theorem State.pushByte_mem (s : State) (v : State → Byte) :
    (s.pushByte v).mem = Memory.write s.mem (s.sp - 1).toNat (v (s.setSp (s.sp - 1))) := by
  simp only [State.pushByte, State.writeMem_mem, State.sp_setSp]
  rfl

theorem State.reg_pushByte (s : State) (v : State → Byte) (q : RegIndex) :
    (s.pushByte v).reg q = if q = Config.spIndex then s.sp - 1 else s.reg q := by
  simp [State.pushByte, State.reg_setSp]

theorem State.readMem_pushByte (s : State) (v : State → Byte) (a : Byte) :
    (s.pushByte v).readMem a = if a = s.sp - 1 then v (s.setSp (s.sp - 1)) else s.readMem a := by
  simp only [State.pushByte, State.readMem_writeMem, State.sp_setSp]
  rfl

@[simp] theorem State.incSp_mem (s : State) : s.incSp.mem = s.mem := rfl
@[simp] theorem State.incSp_pc (s : State) : s.incSp.pc = s.pc := rfl
@[simp] theorem State.incSp_fl (s : State) : s.incSp.fl = s.fl := rfl
@[simp] theorem State.incSp_runState (s : State) : s.incSp.runState = s.runState := rfl
@[simp] theorem State.incSp_out (s : State) : s.incSp.out = s.out := rfl
@[simp] theorem State.readMem_incSp (s : State) (a : Byte) : s.incSp.readMem a = s.readMem a := rfl
@[simp] theorem State.sp_incSp (s : State) : s.incSp.sp = s.sp + 1 := by simp [State.incSp]

theorem State.reg_incSp (s : State) (q : RegIndex) :
    s.incSp.reg q = if q = Config.spIndex then s.sp + 1 else s.reg q := State.reg_setSp _ _ _

end Sys2Proof.Machine
end

