-- ==== Sys2Proof/Laws/PerInstr.lean ====
section
/-! SUPPORT. A statement made per instruction: the instruction's own encoding carries its length (R53). -/

namespace Sys2Proof.Laws.EncodedLength

/-- The encoding is one opcode byte and as many operand bytes as that byte's top two bits say. -/
def Statement (i : Instr) : Prop :=
  ∃ ir operands, encode i = ir :: operands ∧ operands.length = (operandCount ir).toNat

theorem of_format (i : Instr) (h : (operandBytes i).length = formatOperands (formatOf i.mnemonic)) : Statement i :=
  ⟨_, _, rfl, h.trans (operandCount_opcodeOf i.mnemonic).symm⟩

theorem hlt : Statement .hlt := of_format _ rfl
theorem ldi (a imm8 : Byte) : Statement (.ldi a imm8) := of_format _ rfl
theorem prn (a : Byte) : Statement (.prn a) := of_format _ rfl
theorem mul (a b : Byte) : Statement (.mul a b) := of_format _ rfl
theorem add (a b : Byte) : Statement (.add a b) := of_format _ rfl
theorem push (a : Byte) : Statement (.push a) := of_format _ rfl
theorem pop (a : Byte) : Statement (.pop a) := of_format _ rfl
theorem call (a : Byte) : Statement (.call a) := of_format _ rfl
theorem ret : Statement .ret := of_format _ rfl
theorem cmp (a b : Byte) : Statement (.cmp a b) := of_format _ rfl
theorem jmp (a : Byte) : Statement (.jmp a) := of_format _ rfl
theorem jeq (a : Byte) : Statement (.jeq a) := of_format _ rfl
theorem jne (a : Byte) : Statement (.jne a) := of_format _ rfl

end Sys2Proof.Laws.EncodedLength
end

