-- ==== Sys2Proof/Laws/Run.lean ====
section
/-! SUPPORT. Lists of instructions executed in a row. -/

namespace Sys2Proof.Machine

/-- Everything a completed list of two parts did. -/
theorem execAll_append {is js : List Instr} {s t : State} (h : execAll is s = .next t) :
    execAll (is ++ js) s = execAll js t := by
  induction is generalizing s with
  | nil => cases h; rfl
  | cons i is ih =>
    simp only [execAll, List.cons_append] at h ⊢
    split at h
    · exact ih h
    · cases h
    · cases h

theorem State.terminal_iff (s : State) : s.terminal = true ↔ s.runState ≠ .running := by
  unfold State.terminal
  split <;> simp_all

end Sys2Proof.Machine
end

