-- ==== Sys2Proof/Machine/HostText.lean ====
section
/-! DEFINITION. The text forms at the host's side of the ports: the output lines (R81), the assembly spelling (R69) and the
loader's program text (R70). No step of the core reads them. Text is a list of characters. -/

namespace Sys2Proof.Machine

/-- The decimal digits of a byte: no sign, no leading zeros, `0` for zero (R81). -/
def decimal (v : Byte) : List Char := Nat.toDigits 10 v.toNat

/-- The host's rendering of OUT: one decimal value a line (R81; D14). -/
def renderOut : List Byte → List Char
  | [] => []
  | v :: vs => decimal v ++ ['\n'] ++ renderOut vs

/-- A register operand's spelling, `R0` to `R7` (R69). -/
def registerText (a : Byte) : List Char := 'R' :: decimal a

/-- The mnemonic and its operands separated by a comma, immediates in decimal (R69; log 20). -/
def assemblyText : Instr → List Char
  | .hlt => "HLT".toList
  | .ldi a imm8 => "LDI ".toList ++ registerText a ++ [','] ++ decimal imm8
  | .prn a => "PRN ".toList ++ registerText a
  | .mul a b => "MUL ".toList ++ registerText a ++ [','] ++ registerText b
  | .add a b => "ADD ".toList ++ registerText a ++ [','] ++ registerText b
  | .push a => "PUSH ".toList ++ registerText a
  | .pop a => "POP ".toList ++ registerText a
  | .call a => "CALL ".toList ++ registerText a
  | .ret => "RET".toList
  | .cmp a b => "CMP ".toList ++ registerText a ++ [','] ++ registerText b
  | .jmp a => "JMP ".toList ++ registerText a
  | .jeq a => "JEQ ".toList ++ registerText a
  | .jne a => "JNE ".toList ++ registerText a

/-- A line of program text up to its `#` comment (R70). -/
def withoutComment (line : List Char) : List Char := line.takeWhile (fun c => c != '#')

/-- White space around a literal. -/
def isBlank (c : Char) : Bool := c == ' ' || c == '\t' || c == '\r'

/-- A line without its comment and without white space at either end. -/
def lineBody (line : List Char) : List Char :=
  (((withoutComment line).dropWhile isBlank).reverse.dropWhile isBlank).reverse

/-- The value of a base-2 literal, its first digit the highest; `none` where a character is no binary digit. -/
def binaryValue : List Char → Nat → Option Nat
  | [], n => some n
  | '0' :: cs, n => binaryValue cs (2 * n)
  | '1' :: cs, n => binaryValue cs (2 * n + 1)
  | _ :: _, _ => none

/-- The load sequence of program text (R70): one byte a line, blank and comment-only lines skipped; `none` is the loader's
failure on a malformed line, before any instruction runs (R115; log 17). -/
def parseProgram : List (List Char) → Option (List LoadItem)
  | [] => some []
  | line :: rest =>
    match lineBody line with
    | [] => parseProgram rest
    | body =>
      match binaryValue body 0 with
      | none => none
      | some n => if n < 256 then (parseProgram rest).map (fun seq => .byte (BitVec.ofNat 8 n) :: seq) else none

end Sys2Proof.Machine
end

