-- ==== Sys2Proof/Tests/Slice0.lean ====
section
/-! SUPPORT. The model's own tests. Expected values come from the spec: the encodings of `30_encoding.md` R60 and the
vectors of `95_test_vectors.md`, whose numbers stand in the docstrings. At the end, a witness for the hypotheses of each
statement that has some. -/

namespace Sys2Proof.Tests

open Sys2Proof.Machine

/-! ### Helpers -/

/-- The reset state with bytes placed at `p`, PC at `p` and some registers set. -/
def start (p : Byte) (bytes : List Byte) (regs : List (RegIndex × Byte)) : State :=
  regs.foldl (fun s c => s.setReg c.1 c.2) ((State.reset.writeBytes p bytes).setPc p)

/-- The outcome is a next state of which the check holds. -/
def after (o : Host.Outcome State Fault Refusal) (check : State → Bool) : Bool :=
  match o with
  | .next t => check t
  | .fault _ => false
  | .refused _ => false

/-- The load is refused by that name. -/
def refusedWith (o : Host.Outcome State Fault Refusal) (r : Refusal) : Bool :=
  match o with
  | .next _ => false
  | .fault _ => false
  | .refused r' => r' == r

/-! ### Decoding: a word of each row, written out bit by bit from its encoding -/

theorem test_decode_hlt : decode 0b00000001 0xFF 0xFF = .instr .hlt := by decide
theorem test_decode_ldi : decode 0b10000010 0b00000011 0b11111111 = .instr (.ldi 3 255) := by decide
theorem test_decode_prn : decode 0b01000111 0b00000101 0xFF = .instr (.prn 5) := by decide
theorem test_decode_mul : decode 0b10100010 0b00000110 0b00000001 = .instr (.mul 6 1) := by decide
theorem test_decode_add : decode 0b10100000 0b00000010 0b00000111 = .instr (.add 2 7) := by decide
theorem test_decode_push : decode 0b01000101 0b00000100 0xFF = .instr (.push 4) := by decide
theorem test_decode_pop : decode 0b01000110 0b00000011 0xFF = .instr (.pop 3) := by decide
theorem test_decode_call : decode 0b01010000 0b00000010 0xFF = .instr (.call 2) := by decide
theorem test_decode_ret : decode 0b00010001 0xFF 0xFF = .instr .ret := by decide
theorem test_decode_cmp : decode 0b10100111 0b00000001 0b00000101 = .instr (.cmp 1 5) := by decide
theorem test_decode_jmp : decode 0b01010100 0b00000111 0xFF = .instr (.jmp 7) := by decide
theorem test_decode_jeq : decode 0b01010101 0b00000001 0xFF = .instr (.jeq 1) := by decide
theorem test_decode_jne : decode 0b01010110 0b00000010 0xFF = .instr (.jne 2) := by decide

/-- R61: 0x00 is no no-op; the source's example byte 255. -/
theorem test_decode_rejects_by_name :
    decode 0x00 1 2 = .unrecognizedOpcode 0x00 ∧ decode 0xFF 1 2 = .unrecognizedOpcode 0xFF := by decide

/-- How many of the 64 bytes from `n` on are unrecognized. -/
def unrecognizedFrom (n : Nat) : Nat :=
  ((List.range 64).filter (fun k => decodeMnemonic (BitVec.ofNat 8 (n + k)) == none)).length

/-- R61: 243 of the 256 bytes are unrecognized, among them all with `IR[7:6] = 3` (R54). -/
theorem test_unrecognized_count :
    unrecognizedFrom 0 = 62 ∧ unrecognizedFrom 64 = 57 ∧ unrecognizedFrom 128 = 60 ∧ unrecognizedFrom 192 = 64 ∧
    62 + 57 + 60 + 64 = 243 := by decide

/-- R57: the operand byte is not masked. -/
theorem test_decode_keeps_operand_byte : decode 0x47 0x08 0 = .instr (.prn 8) := by decide

/-- The source's example bytes of LDI R0,8 (R79). -/
theorem test_encode_ldi : encode (.ldi 0 8) = [0b10000010, 0b00000000, 0b00001000] := by decide

theorem test_table_word_short : decodeTableWord 8 0xA2 = some (.mul 0 0) := by decide
theorem test_table_word_whole : decodeTableWord 24 0x080082 = some (.ldi 0 8) := by decide
theorem test_table_word_rejected : decodeTableWord 8 0x00 = none := by decide

theorem test_fetch_word_runs_first :
    after (step (State.reset.withFetchWord 24 0x080082)) (fun t => t.reg 0 == 8 && t.pc == 3) = true := by decide

/-! ### WellFormed: an ill-formed term for each operand check, and terms it accepts -/

theorem test_wf_refuses_one_operand :
    [Instr.ldi 8 0, .prn 255, .push 8, .pop 8, .call 9, .jmp 8, .jeq 8, .jne 128].all (fun i => !i.wellFormed) = true := by
  decide

theorem test_wf_refuses_operand_a : [Instr.mul 8 0, .add 8 0, .cmp 255 7].all (fun i => !i.wellFormed) = true := by decide
theorem test_wf_refuses_operand_b : [Instr.mul 0 8, .add 7 8, .cmp 0 255].all (fun i => !i.wellFormed) = true := by decide

/-- LDI's immediate is not checked (R63, R79). -/
theorem test_wf_accepts :
    [Instr.hlt, .ret, .ldi 7 255, .prn 7, .add 7 7, .jne 0].all Instr.wellFormed = true := by decide

/-! ### ALU -/

/-- E1, A1. -/
theorem test_add_wraps :
    after (step (start 0 [0xA0, 0, 1] [(0, 250), (1, 10)])) (fun t => t.reg 0 == 4 && t.reg 1 == 10 && t.pc == 3) = true := by
  decide

/-- A4. -/
theorem test_add_to_sp : after (step (start 0 [0xA0, 7, 1] [(1, 0xFF)])) (fun t => t.sp == 0xF3) = true := by decide

/-- A5. -/
theorem test_mul_low_byte :
    after (step (start 0 [0xA2, 0, 1] [(0, 0xFF), (1, 0xFF)])) (fun t => t.reg 0 == 1 && t.fl == 0) = true := by decide

/-- A6b. -/
theorem test_mul_square : after (step (start 0 [0xA2, 2, 2] [(2, 16)])) (fun t => t.reg 2 == 0 && t.pc == 3) = true := by
  decide

/-- A7: a signed compare would give L. -/
theorem test_cmp_unsigned : after (step (start 0 [0xA7, 0, 1] [(0, 0x80), (1, 1)])) (fun t => t.fl == 0b010) = true := by
  decide

/-- A9: the old FL is overwritten. -/
theorem test_cmp_overwrites :
    after (step ((start 0 [0xA7, 3, 3] [(3, 7)]).setFl 0b100)) (fun t => t.fl == 0b001 && t.reg 3 == 7) = true := by decide

/-- A11: operand_b is checked and nothing is written. -/
theorem test_fault_operand_b :
    after (step (start 0 [0xA0, 0, 8] [(0, 1)])) (fun t =>
      t == (start 0 [0xA0, 0, 8] [(0, 1)]).setRunState (.faulted (.registerIndexOutOfRange 0 0xA0 8))) = true := by decide

/-- A12: operand_a is reported first. -/
theorem test_fault_operand_a_first :
    after (step (start 0 [0xA7, 9, 8] [])) (fun t => t.runState == .faulted (.registerIndexOutOfRange 0 0xA7 9)) = true := by
  decide

/-! ### Machine control, immediate load, output -/

/-- M6. -/
theorem test_hlt_advances : after (step (start 5 [0x01] [])) (fun t => t.runState == .halted && t.pc == 6) = true := by decide

/-- M7. -/
theorem test_hlt_wraps : after (step (start 0xFF [0x01] [])) (fun t => t.runState == .halted && t.pc == 0) = true := by decide

/-- M4: the immediate is fetched from the wrapped address. -/
theorem test_ldi_fetch_wraps :
    after (step (start 0xFE [0x82, 0x00, 0x99] [])) (fun t => t.reg 0 == 0x99 && t.pc == 1) = true := by decide

/-- M3. -/
theorem test_ldi_bad_register :
    after (step (start 0 [0x82, 8, 5] [])) (fun t =>
      t.runState == .faulted (.registerIndexOutOfRange 0 0x82 8) && t.pc == 0) = true := by decide

/-- M5. -/
theorem test_prn_sp : after (step (start 0 [0x47, 7] [])) (fun t => t.out == [244] && t.pc == 2) = true := by decide

/-- R27: OUT is appended to. -/
theorem test_prn_appends :
    after (step ((start 0 [0x47, 0] [(0, 8)]).emit 3)) (fun t => t.out == [3, 8]) = true := by decide

/-- M8, L3: memory past the program is 0, which no row matches. -/
theorem test_zero_byte_faults :
    after (step State.reset) (fun t => t == State.reset.setRunState (.faulted (.unrecognizedOpcode 0 0))) = true := by decide

/-- M9. -/
theorem test_c0_faults :
    after (step (start 0 [0xC0] [])) (fun t => t.runState == .faulted (.unrecognizedOpcode 0 0xC0)) = true := by decide

/-- M10. -/
theorem test_halted_step_idle :
    after (step ((start 0 [0x47, 0] []).setRunState .halted)) (fun t =>
      t == (start 0 [0x47, 0] []).setRunState .halted) = true := by decide

/-! ### Stack -/

/-- S3. -/
theorem test_push_sp_stores_decremented :
    after (step (start 0 [0x45, 7] [])) (fun t => t.sp == 0xF3 && t.readMem 0xF3 == 0xF3) = true := by decide

/-- S8: the bytes already fetched run. -/
theorem test_push_over_itself :
    after (step (start 0xF2 [0x45, 0] [(0, 0xAA)])) (fun t =>
      t.readMem 0xF3 == 0xAA && t.sp == 0xF3 && t.pc == 0xF4) = true := by decide

/-- S4. -/
theorem test_pop_sp :
    after (step (start 0 [0x46, 7] [(7, 0xF3)] |>.writeMem 0xF3 0x20)) (fun t => t.sp == 0x21) = true := by decide

/-- S7. -/
theorem test_pop_wraps :
    after (step (start 0x10 [0x46, 1] [(7, 0xFF)] |>.writeMem 0xFF 0x66)) (fun t => t.reg 1 == 0x66 && t.sp == 0) = true := by
  decide

/-! ### Control flow -/

/-- C2: the target is read after the decrement. -/
theorem test_call_sp :
    after (step (start 0 [0x50, 7] [])) (fun t => t.sp == 0xF3 && t.readMem 0xF3 == 2 && t.pc == 0xF3) = true := by decide

/-- C3: the return address wraps. -/
theorem test_call_return_wraps :
    after (step (start 0xFE [0x50, 1] [(1, 0x40)])) (fun t => t.readMem 0xF3 == 0 && t.sp == 0xF3 && t.pc == 0x40) = true := by
  decide

/-- C5. -/
theorem test_ret :
    after (step (start 0 [0x11] [(7, 0xF3)] |>.writeMem 0xF3 8)) (fun t => t.pc == 8 && t.sp == 0xF4) = true := by decide

/-- C7. -/
theorem test_ret_wraps :
    after (step (start 0x10 [0x11] [(7, 0xFF)] |>.writeMem 0xFF 0x30)) (fun t => t.pc == 0x30 && t.sp == 0) = true := by decide

/-- B9. -/
theorem test_jmp_self : after (step (start 0x20 [0x54, 3] [(3, 0x20)])) (fun t => t.pc == 0x20) = true := by decide

/-- B4: G does not count. -/
theorem test_jeq_needs_e :
    after (step ((start 18 [0x55, 4] [(4, 27)]).setFl 0b010)) (fun t => t.pc == 20) = true := by decide

/-- B8: checked even when not taken. -/
theorem test_jeq_checks_when_not_taken :
    after (step (start 0x10 [0x55, 9] [])) (fun t =>
      t.runState == .faulted (.registerIndexOutOfRange 0x10 0x55 9) && t.pc == 0x10) = true := by decide

/-- B5. -/
theorem test_jne_taken : after (step ((start 0 [0x56, 2] [(2, 15)]).setFl 0b100)) (fun t => t.pc == 15) = true := by decide

/-- B6. -/
theorem test_jne_not_taken :
    after (step ((start 18 [0x56, 2] [(2, 15)]).setFl 0b001)) (fun t => t.pc == 20) = true := by decide

/-! ### Memory and ports -/

/-- The canonical form: writing 0 removes the entry; a lower address goes before. -/
theorem test_memory_canonical :
    Memory.write (Memory.write (Memory.write [] 9 1) 4 2) 9 0 = [(4, 2)] ∧
    Memory.write (Memory.write [] 9 1) 4 2 = [(4, 2), (9, 1)] := by decide

/-- L1. -/
theorem test_load_ignore :
    after (loadPort [.byte 0x82, .ignore, .byte 0x00, .byte 0x08] State.reset) (fun t =>
      t.readMem 0 == 0x82 && t.readMem 1 == 0 && t.readMem 2 == 8 && t.readMem 3 == 0) = true := by decide

/-- A load of `n` equal bytes has `n` values. -/
theorem loadValues_replicate (n : Nat) (v : Byte) :
    loadValues (List.replicate n (.byte v)) = List.replicate n v := by
  induction n with
  | zero => rfl
  | succ n ih => simp [List.replicate_succ, loadValues, ih]

theorem length_values (n : Nat) (v : Byte) : (loadValues (List.replicate n (.byte v))).length = n := by
  rw [loadValues_replicate, List.length_replicate]

/-- L2. -/
theorem test_load_overflow :
    refusedWith (loadPort (List.replicate 257 (.byte 1)) State.reset) .loadOverflow = true := by
  rw [loadPort, length_values]
  decide

/-- R33. -/
theorem test_accessors_refuse :
    refusedWith (writeMemory 256 0 State.reset) .hostRequestOutOfRange = true ∧
    refusedWith (writeRegister 8 0 State.reset) .hostRequestOutOfRange = true := by decide

/-- R81, M5: the host prints 244. -/
theorem test_render : renderOut [244, 0] = ['2', '4', '4', '\n', '0', '\n'] := by decide

/-- R70's illustration: the three lines of LDI R0,8, and a comment-only line. -/
theorem test_parse_program :
    parseProgram ["10000010 # LDI R0,8".toList, "00000000".toList, "# done".toList, "00001000".toList] =
      some [.byte 0x82, .byte 0, .byte 8] := by decide

/-- A malformed line (R115). -/
theorem test_parse_malformed : parseProgram ["0102".toList] = none := by decide

/-- R69's spelling. -/
theorem test_assembly_text : assemblyText (.ldi 0 8) = "LDI R0,8".toList := by decide

/-! ### Witnesses: for each statement with hypotheses, an instance that meets them all -/

theorem witness_LdiLoadsImmediate_fault : 8 ≤ (8 : Byte).toNat ∧ 8 ≤ (255 : Byte).toNat := by decide
theorem witness_LdiLoadsImmediate_sp :
    (∃ t, exec .ret State.reset = .next t ∧ t.sp ≠ State.reset.sp) ∧
    (∃ t, exec (.ldi 7 0) State.reset = .next t ∧ t.sp ≠ State.reset.sp) ∧
    (∃ t, exec (.add 7 7) State.reset = .next t ∧ t.sp ≠ State.reset.sp) ∧
    (∃ t, exec (.mul 7 0) State.reset = .next t ∧ t.sp ≠ State.reset.sp) :=
  ⟨⟨_, rfl, by decide⟩, ⟨_, rfl, by decide⟩, ⟨_, rfl, by decide⟩, ⟨_, rfl, by decide⟩⟩
theorem witness_PrnEmitsRegister_fault : 8 ≤ (8 : Byte).toNat := by decide

/-- Equal, greater and less, each with operands for it; the values where the clauses meet. -/
theorem witness_CmpSetsOneFlag :
    ((start 0 [] [(0, 255), (1, 255)]).reg 0).toNat = ((start 0 [] [(0, 255), (1, 255)]).reg 1).toNat ∧
    ((start 0 [] [(0, 128), (1, 127)]).reg 0).toNat > ((start 0 [] [(0, 128), (1, 127)]).reg 1).toNat ∧
    ((start 0 [] [(0, 0), (1, 255)]).reg 0).toNat < ((start 0 [] [(0, 0), (1, 255)]).reg 1).toNat := by decide

theorem witness_PopLoadsFromSp : (6 : RegIndex) ≠ 7 ∧ (7 : RegIndex) = 7 := by decide
theorem witness_JeqBranchesOnEqual :
    (State.reset.setFl 0b001).flagE = true ∧ State.reset.flagE = false := by decide
theorem witness_JneBranchesOnNotEqual :
    (State.reset.setFl 0b110).flagE = false ∧ (State.reset.setFl 0b001).flagE = true := by decide

theorem witness_CallThenRetReturns : ∃ t u : State, exec (.call (regOperand 1)) State.reset = .next t ∧
    u.sp = t.sp ∧ u.readMem t.sp = t.readMem t.sp := ⟨_, _, rfl, rfl, rfl⟩

theorem witness_BadRegisterOperandFaults :
    Instr.firstBadOperand (.cmp 9 8) = some 9 ∧ Instr.firstBadOperand (.add 7 8) = some 8 ∧
    Instr.firstBadOperand (.jeq 255) = some 255 := by decide

theorem witness_UnrecognizedOpcodeFaults :
    State.reset.runState = .running ∧ ∀ m, State.reset.readMem State.reset.pc ≠ opcodeOf m :=
  ⟨rfl, fun m => by cases m <;> decide⟩

theorem witness_FaultsOnlyForTheirCauses_opcode :
    State.reset.runState = .running ∧ ∃ t f, step State.reset = .next t ∧ t.runState = .faulted f :=
  ⟨rfl, _, _, rfl, rfl⟩
theorem witness_FaultsOnlyForTheirCauses_index :
    (start 0 [0x45, 8] []).runState = .running ∧
    ∃ t f, step (start 0 [0x45, 8] []) = .next t ∧ t.runState = .faulted f := ⟨rfl, _, _, rfl, rfl⟩

theorem witness_RunStateTransitions_terminal :
    ∃ t, step (State.reset.setRunState .halted) = .next t ∧ (State.reset.setRunState .halted).runState ≠ .running :=
  ⟨_, rfl, by decide⟩
theorem witness_RunStateTransitions_halt :
    ∃ t, step (start 0 [0x01] []) = .next t ∧ (start 0 [0x01] []).runState = .running ∧ t.runState = .halted :=
  ⟨_, rfl, rfl, rfl⟩
theorem witness_RunStateTransitions_fault :
    ∃ t f, step State.reset = .next t ∧ State.reset.runState = .running ∧ t.runState = .faulted f := ⟨_, _, rfl, rfl, rfl⟩
theorem witness_TerminalStepDoesNothing :
    (State.reset.setRunState (.faulted (.unrecognizedOpcode 0 0))).runState ≠ .running := by decide

theorem witness_StepRunsDecoded : (start 0xFF [0x47, 3] []).runState = .running ∧
    decode ((start 0xFF [0x47, 3] []).readMem 0xFF) ((start 0xFF [0x47, 3] []).readMem 0)
      ((start 0xFF [0x47, 3] []).readMem 1) = .instr (.prn 3) := by decide

theorem witness_AutomaticAdvance : (start 0xFE [0xA0, 7, 0] []).runState = .running ∧
    decode ((start 0xFE [0xA0, 7, 0] []).readMem 0xFE) ((start 0xFE [0xA0, 7, 0] []).readMem 0xFF)
      ((start 0xFE [0xA0, 7, 0] []).readMem 0) = .instr (.add 7 0) ∧
    Instr.wellFormed (.add 7 0) = true ∧
    Instr.mnemonic (.add 7 0) ∉ [Mnemonic.call, .ret, .jmp, .jeq, .jne] := by decide
theorem witness_AutomaticAdvance_hlt : (start 0xFF [0x01] []).runState = .running ∧
    decode ((start 0xFF [0x01] []).readMem 0xFF) ((start 0xFF [0x01] []).readMem 0)
      ((start 0xFF [0x01] []).readMem 1) = .instr .hlt ∧
    Instr.wellFormed .hlt = true ∧ Instr.mnemonic .hlt ∉ [Mnemonic.call, .ret, .jmp, .jeq, .jne] := by decide

theorem witness_OperandPrefetchHarmless_one : (start 0xFF [0x11] []).runState = .running ∧
    fetchDecode (start 0xFF [0x11] []) = .instr .ret ∧ (encode .ret).length = 1 := by decide
theorem witness_OperandPrefetchHarmless_two : (start 0xFE [0x45, 2] []).runState = .running ∧
    fetchDecode (start 0xFE [0x45, 2] []) = .instr (.push 2) ∧ (encode (.push 2)).length ≤ 2 := by decide

theorem witness_FetchSeesEarlierStores : (start 0xF2 [0x45, 0] []).runState = .running ∧
    fetchDecode (start 0xF2 [0x45, 0] []) = .instr (.push (regOperand 0)) ∧ (0 : RegIndex) ≠ 7 ∧
    ∃ t u : State, step (start 0xF2 [0x45, 0] []) = .next t ∧ u.mem = t.mem ∧
      u.pc = (start 0xF2 [0x45, 0] []).sp - 1 :=
  ⟨by decide, by decide, by decide, _, { start 0 [] [] with mem := _, pc := _ }, rfl, rfl, rfl⟩

theorem witness_FlagsReadersAndWriters_writers :
    ∃ t, exec (.add (regOperand 0) (regOperand 1)) State.reset = .next t ∧
      Instr.mnemonic (.add (regOperand 0) (regOperand 1)) ≠ .cmp := ⟨_, rfl, by decide⟩
theorem witness_FlagsReadersAndWriters_branch :
    (∃ t, exec (.jeq (regOperand 2)) State.reset = .next t) ∧ (State.reset.setFl 0b110).flagE = State.reset.flagE :=
  ⟨⟨_, rfl⟩, by decide⟩
theorem witness_FlagsReadersAndWriters_other :
    (∃ t, exec .hlt State.reset = .next t) ∧ Instr.mnemonic .hlt ∉ [Mnemonic.jeq, .jne] := ⟨⟨_, rfl⟩, by decide⟩

theorem witness_FlagsReadersAndWriters_readE :
    Instr.jne (regOperand 7) ∈ [Instr.jeq (regOperand 7), .jne (regOperand 7)] ∧
    State.reset.reg 7 ≠ State.reset.pc + 2 ∧ (State.reset.setFl 0b001).flagE ≠ State.reset.flagE := by decide

theorem witness_BranchTestsLastCompare :
    (∀ i ∈ [Instr.add (regOperand 0) (regOperand 1)], i.mnemonic ≠ .cmp) ∧
    ∃ t, execAll [.cmp (regOperand 0) (regOperand 1), .add (regOperand 0) (regOperand 1)] State.reset = .next t :=
  ⟨by decide, _, rfl⟩

theorem witness_OutputAppendsOncePerPrn :
    ∃ t s' : State, step (start 0 [0x47, 0] [(0, 8)]) = .next t ∧ (start 0 [0x47, 0] [(0, 8)]).runState = .running ∧
      fetchDecode (start 0 [0x47, 0] [(0, 8)]) = .instr (.prn (regOperand 0)) ∧
      s' = { start 0 [0x47, 0] [(0, 8)] with out := s'.out } :=
  ⟨_, (start 0 [0x47, 0] [(0, 8)]).emit 1, rfl, rfl, by decide, rfl⟩

theorem witness_RegisterReadersAndWriters :
    ∃ t s' : State, exec (.push (regOperand 1)) State.reset = .next t ∧
      s' = { State.reset with regs := s'.regs } ∧
      (∀ r ∈ regsRead State.reset.flagE (.push (regOperand 1)), s'.reg r = State.reset.reg r) ∧ s'.reg 2 ≠ State.reset.reg 2 :=
  ⟨_, State.reset.setReg 2 5, rfl, rfl, by decide, by decide⟩

theorem witness_MemoryReadersAndWriters_frame :
    (∃ t, exec (.pop (regOperand 1)) State.reset = .next t) ∧
    Instr.mnemonic (.pop (regOperand 1)) ∉ [Mnemonic.push, .call] := ⟨⟨_, rfl⟩, by decide⟩
theorem witness_MemoryReadersAndWriters_reads :
    ∃ t s' : State, exec .ret State.reset = .next t ∧ s' = { State.reset with mem := s'.mem } ∧
      s'.readMem State.reset.sp = State.reset.readMem State.reset.sp ∧ s'.mem ≠ State.reset.mem :=
  ⟨_, State.reset.writeMem 3 1, rfl, rfl, by decide, by decide⟩

theorem witness_LengthFromOpcode :
    decode 0x45 1 0 = .instr (.push 1) ∧ decode 0x45 9 7 = .instr (.push 9) := by decide
theorem witness_PlacedWordRuns : decodeTableWord 16 0x0747 = some (.prn 7) := by decide

theorem reset_inv : StateInv State.reset := ⟨by decide, by decide, trivial⟩
theorem witness_StepKeepsInvariant : StateInv State.reset ∧ ∃ t, step State.reset = .next t := ⟨reset_inv, _, rfl⟩

theorem witness_MemoryCanonical : Memory.wf [(3, 1), (255, 2)] ∧ Memory.wf (Memory.write [(255, 2)] 3 1) ∧
    ∀ a, Memory.read [(3, 1), (255, 2)] a = Memory.read (Memory.write [(255, 2)] 3 1) a :=
  ⟨by decide, by decide, fun _ => rfl⟩
theorem witness_WritesCompose : Memory.wf State.reset.mem ∧ (0 : Byte) ≠ 255 := by decide

theorem witness_LoadWritesFromZero_refused : 256 < (loadValues (List.replicate 257 (.byte 1))).length := by
  rw [length_values]
  decide
theorem witness_LoadWritesFromZero_whole : (loadValues (.ignore :: List.replicate 256 (.byte 1))).length ≤ 256 ∧
    255 < (loadValues (.ignore :: List.replicate 256 (.byte 1))).length := by
  rw [loadValues, length_values]
  decide
theorem witness_LoadWritesFromZero_above :
    (loadValues [.byte 1, .ignore]).length ≤ (1 : Byte).toNat := by decide

theorem witness_HostAccessors :
    (255 < 256 ∧ 255 < 256) ∧ (256 ≤ 256 ∨ 256 ≤ 0) ∧ (256 ≤ 0 ∨ 256 ≤ 256) ∧ 8 ≤ 8 := by decide

theorem witness_PushesThenPopsRestore :
    (7 : RegIndex) ∉ List.replicate 256 (3 : RegIndex) ∧ (List.replicate 256 (3 : RegIndex)).length ≤ 256 :=
  ⟨fun h => absurd (List.eq_of_mem_replicate h) (by decide), List.length_replicate.le⟩

/-- After the pushes a state with another value in a pushed register still meets the premises. -/
theorem witness_PushesThenPopsRestore_between :
    ∃ t u : State, execAll ([3, 1].map (fun r : RegIndex => .push (regOperand r))) (start 0 [] [(3, 9), (1, 5)]) = .next t ∧
      u.sp = t.sp ∧ (∀ k < 2, u.readMem (0xF4 - BitVec.ofNat 8 (k + 1)) = t.readMem (0xF4 - BitVec.ofNat 8 (k + 1))) ∧
      u.reg 3 ≠ t.reg 3 := by
  refine ⟨_, State.setReg (State.writeBytes (start 0 [] [(7, 0xF2)]) 0xF2 [5, 9]) 3 0, rfl, ?_, ?_, ?_⟩ <;> decide

/-- A run that ends: the single byte HLT (P7). -/
theorem witness_RunEndsOnceOrNever : ∃ t, RunEndsIn (start 0 [0x01] []) t := ⟨_, rfl, 1, rfl⟩

theorem witness_SelfJumpRunsForever : (start 0x20 [0x54, 3] [(3, 0x20)]).runState = .running ∧
    fetchDecode (start 0x20 [0x54, 3] [(3, 0x20)]) = .instr (.jmp (regOperand 3)) ∧
    (start 0x20 [0x54, 3] [(3, 0x20)]).reg 3 = (start 0x20 [0x54, 3] [(3, 0x20)]).pc := by decide

end Sys2Proof.Tests
end

/-! What an instruction and a step can do, said once (R24, R62 to R67, R103, R106), and from it the statements
about RS, FL and OUT (R22, R24, R35). -/

namespace Sys2Proof.Machine

/-! ### The register-operand check, by the first bad operand -/

@[simp] theorem namesRegister_regOperand (r : RegIndex) : namesRegister (regOperand r) = true := by
  simp [namesRegister_eq_isSome]

theorem namesRegister_eq_false {a : Byte} : namesRegister a = false ↔ 8 ≤ a.toNat := by
  simp [namesRegister]

theorem withRegister_of_find {m : Mnemonic} {a b : Byte} (s : State) (k : RegIndex → Host.Outcome State Fault Refusal)
    (h : [a].find? (fun x => !namesRegister x) = some b) :
    withRegister m a s k = .next (s.raise (.registerIndexOutOfRange s.pc (opcodeOf m) b)) := by
  rcases withRegister_cases m a s k with ⟨r, rfl, -⟩ | ⟨ha, hk⟩
  · simp at h
  · obtain rfl : a = b := by simpa [namesRegister_eq_false.mpr ha] using h
    exact hk

theorem withRegisters_of_find {m : Mnemonic} {a b c : Byte} (s : State)
    (k : RegIndex → RegIndex → Host.Outcome State Fault Refusal)
    (h : [a, b].find? (fun x => !namesRegister x) = some c) :
    withRegisters m a b s k = .next (s.raise (.registerIndexOutOfRange s.pc (opcodeOf m) c)) := by
  rcases withRegister_cases m a s (fun ra => withRegister m b s (k ra)) with ⟨r, rfl, hk⟩ | ⟨ha, hk⟩
  · exact hk.trans (withRegister_of_find s (k r) (by simpa using h))
  · obtain rfl : a = c := by simpa [namesRegister_eq_false.mpr ha] using h
    exact hk

/-- An instruction with a bad register operand takes the fault for the first one (R63, R103, R106). -/
theorem exec_of_firstBadOperand {i : Instr} {a : Byte} (s : State) (h : i.firstBadOperand = some a) :
    exec i s = .next (s.raise (.registerIndexOutOfRange s.pc (opcodeOf i.mnemonic) a)) := by
  cases i with
  | hlt | ret => cases h
  | ldi | prn | push | pop | call | jmp | jeq | jne => exact withRegister_of_find s _ h
  | mul | add | cmp => exact withRegisters_of_find s _ h

/-! ### What an instruction can do -/

/-- `Completes s i t`: the instruction `i` passes the register-operand check (R63) and takes `s` to `t`. Tied to `exec` by
`Completes.exec_eq` and `exec_cases`. -/
inductive Completes (s : State) : Instr → State → Prop where
  | hlt : Completes s .hlt ((s.endStep .hlt).setRunState .halted)
  | ldi (r : RegIndex) (v : Byte) : Completes s (.ldi (regOperand r) v) ((s.setReg r v).endStep .ldi)
  | prn (r : RegIndex) : Completes s (.prn (regOperand r)) ((s.emit (s.reg r)).endStep .prn)
  | mul (r q : RegIndex) : Completes s (.mul (regOperand r) (regOperand q)) ((alu .mul r q s).endStep .mul)
  | add (r q : RegIndex) : Completes s (.add (regOperand r) (regOperand q)) ((alu .add r q s).endStep .add)
  | push (r : RegIndex) : Completes s (.push (regOperand r)) ((s.pushByte (fun s1 => s1.reg r)).endStep .push)
  | pop (r : RegIndex) : Completes s (.pop (regOperand r)) (((s.setReg r s.stackTop).incSp).endStep .pop)
  | call (r : RegIndex) : Completes s (.call (regOperand r))
      (((s.pushByte (fun _ => s.afterTwoBytes)).setPc ((s.pushByte (fun _ => s.afterTwoBytes)).reg r)).endStep .call)
  | ret : Completes s .ret (((s.setPc s.stackTop).incSp).endStep .ret)
  | cmp (r q : RegIndex) : Completes s (.cmp (regOperand r) (regOperand q)) ((alu .cmp r q s).endStep .cmp)
  | jmp (r : RegIndex) : Completes s (.jmp (regOperand r)) ((s.setPc (s.reg r)).endStep .jmp)
  | jeq (r : RegIndex) : Completes s (.jeq (regOperand r))
      ((s.setPc (if s.flagE then s.reg r else s.afterTwoBytes)).endStep .jeq)
  | jne (r : RegIndex) : Completes s (.jne (regOperand r))
      ((s.setPc (if s.flagE then s.afterTwoBytes else s.reg r)).endStep .jne)

theorem Completes.exec_eq {s t : State} {i : Instr} (h : Completes s i t) : exec i s = .next t := by
  cases h with
  | hlt | ret => rfl
  | ldi | prn | push | pop | call | jmp | jeq | jne => exact withRegister_regOperand _ _ _ _
  | mul | add | cmp => exact withRegisters_regOperand _ _ _ _ _

theorem exists_completes_of_wellFormed {i : Instr} (hw : i.wellFormed = true) (s : State) : ∃ t, Completes s i t := by
  rcases wellFormed_cases hw with rfl | rfl | ⟨r, v, rfl⟩ | ⟨r, rfl | rfl | rfl | rfl | rfl | rfl | rfl⟩ |
    ⟨r, q, rfl | rfl | rfl⟩ <;> exact ⟨_, by constructor⟩

/-- Everything an instruction can do: complete, or take the fault for its first bad register operand. -/
theorem exec_cases {i : Instr} {s t : State} (h : exec i s = .next t) :
    Completes s i t ∨ ∃ a, i.firstBadOperand = some a ∧
      t = s.raise (.registerIndexOutOfRange s.pc (opcodeOf i.mnemonic) a) := by
  cases hb : i.firstBadOperand with
  | none =>
    obtain ⟨u, hu⟩ := exists_completes_of_wellFormed (firstBadOperand_eq_none.mp hb) s
    obtain rfl : u = t := by simpa [hu.exec_eq] using h
    exact .inl hu
  | some a =>
    obtain rfl : _ = t := by simpa [exec_of_firstBadOperand s hb] using h
    exact .inr ⟨a, rfl, rfl⟩

/-! ### What a step can do -/

theorem step_of_terminal {s : State} (h : s.runState ≠ .running) : step s = .next s := by
  unfold step
  split
  · contradiction
  · rfl
  · rfl

theorem step_of_instr {s : State} {i : Instr} (hr : s.runState = .running) (hd : fetchDecode s = .instr i) :
    step s = exec i s := by
  simp [step, hr, hd]

theorem step_of_unrecognizedOpcode {s : State} {ir : Byte} (hr : s.runState = .running)
    (hd : fetchDecode s = .unrecognizedOpcode ir) : step s = .next (s.raise (.unrecognizedOpcode s.pc ir)) := by
  simp [step, hr, hd, raiseUnrecognizedOpcode]

/-- Everything a step can do (R64, R67): nothing in a terminal state, the fault for a byte of no row, or the decoded
instruction. -/
theorem step_cases {s t : State} (h : step s = .next t) :
    (s.runState ≠ .running ∧ t = s) ∨
    (∃ ir, s.runState = .running ∧ fetchDecode s = .unrecognizedOpcode ir ∧
      t = s.raise (.unrecognizedOpcode s.pc ir)) ∨
    (∃ i, s.runState = .running ∧ fetchDecode s = .instr i ∧ exec i s = .next t) := by
  by_cases hr : s.runState = .running
  · cases hd : fetchDecode s with
    | instr i => exact .inr (.inr ⟨i, hr, rfl, (step_of_instr hr hd).symm.trans h⟩)
    | unrecognizedOpcode ir =>
      rw [step_of_unrecognizedOpcode hr hd] at h
      cases h
      exact .inr (.inl ⟨ir, hr, rfl, rfl⟩)
  · rw [step_of_terminal hr] at h
    cases h
    exact .inl ⟨hr, rfl⟩

/-! ### The run state (R24) -/

theorem Completes.runState_eq {s t : State} {i : Instr} (h : Completes s i t) :
    t.runState = if i = .hlt then .halted else s.runState := by
  cases h <;> simp

/-- An instruction keeps RS, or it is HLT and halts, or it takes a fault. -/
theorem exec_runState {i : Instr} {s t : State} (h : exec i s = .next t) :
    t.runState = s.runState ∨ (i = .hlt ∧ t.runState = .halted) ∨ ∃ f, t = s.raise f := by
  rcases exec_cases h with hc | ⟨a, -, rfl⟩
  · have hrs := hc.runState_eq
    split at hrs
    · next hi => exact .inr (.inl ⟨hi, hrs⟩)
    · exact .inl hrs
  · exact .inr (.inr ⟨_, rfl⟩)

/-- A running machine that steps to another run state has run HLT or taken a fault. -/
theorem step_runState {s t : State} (hr : s.runState = .running) (h : step s = .next t) :
    t.runState = .running ∨ (fetchDecode s = .instr .hlt ∧ t.runState = .halted) ∨ ∃ f, t = s.raise f := by
  rcases step_cases h with ⟨hn, -⟩ | ⟨ir, -, -, rfl⟩ | ⟨i, -, hd, he⟩
  · exact absurd hr hn
  · exact .inr (.inr ⟨_, rfl⟩)
  · rcases exec_runState he with hs | ⟨rfl, hh⟩ | hf
    · exact .inl (hs.trans hr)
    · exact .inr (.inl ⟨hd, hh⟩)
    · exact .inr (.inr hf)

/-- Settles O19: a step of a terminal state is idle, and `step_runState` names what a running state can become. -/
theorem runStateTransitions : Obligations.RunStateTransitions := by
  refine ⟨⟨rfl, rfl⟩, fun _ => rfl, fun s t h => ⟨fun hn => ?_, fun hr hh => ?_, fun f hr hf => ?_⟩⟩
  · rw [step_of_terminal hn] at h
    cases h
    rfl
  · rcases step_runState hr h with hs | ⟨hd, -⟩ | ⟨g, rfl⟩
    · simp [hs] at hh
    · exact hd
    · simp at hh
  · rcases step_runState hr h with hs | ⟨-, hs⟩ | ⟨g, rfl⟩
    · simp [hs] at hf
    · simp [hs] at hf
    · obtain rfl : g = f := by simpa using hf
      rfl

/-! ### The flags (R22) -/

theorem Completes.fl_eq {s t : State} {i : Instr} (h : Completes s i t) (hi : i.mnemonic ≠ .cmp) : t.fl = s.fl := by
  cases h with
  | cmp => exact absurd rfl hi
  | mul | add => simp [alu_fl]
  | hlt | ldi | prn | push | pop | call | ret | jmp | jeq | jne => simp

theorem exec_fl {i : Instr} {s t : State} (h : exec i s = .next t) (hi : i.mnemonic ≠ .cmp) : t.fl = s.fl := by
  rcases exec_cases h with hc | ⟨a, -, rfl⟩
  · exact hc.fl_eq hi
  · rfl

/-- At most one of E, G, L is set in a legal FL (R21, R23). -/
theorem State.at_most_one_flag {s : State} (h : legalFlags s.fl) :
    ¬(s.flagE = true ∧ s.flagG = true) ∧ ¬(s.flagE = true ∧ s.flagL = true) ∧
      ¬(s.flagG = true ∧ s.flagL = true) := by
  unfold State.flagE State.flagG State.flagL
  rcases h with h | h | h | h <;> rw [h] <;> decide

/-- Another FL with the same E, or any other FL where the instruction is no conditional branch, gives the same next state
but for FL. -/
theorem Completes.setFl {s t : State} {i : Instr} (h : Completes s i t) (f : Byte)
    (hE : (s.setFl f).flagE = s.flagE ∨ i.mnemonic ∉ [.jeq, .jne]) :
    ∃ u, Completes (s.setFl f) i u ∧ u.setFl t.fl = t := by
  cases h with
  | jeq r =>
    have hE : (s.setFl f).flagE = s.flagE := hE.resolve_right (by simp [Instr.mnemonic])
    refine ⟨_, .jeq r, ?_⟩
    rw [hE]
    rfl
  | jne r =>
    have hE : (s.setFl f).flagE = s.flagE := hE.resolve_right (by simp [Instr.mnemonic])
    refine ⟨_, .jne r, ?_⟩
    rw [hE]
    rfl
  | hlt | ldi | prn | mul | add | push | pop | call | ret | cmp | jmp => exact ⟨_, by constructor, rfl⟩

theorem exec_setFl {i : Instr} {s t : State} (h : exec i s = .next t) (f : Byte)
    (hE : (s.setFl f).flagE = s.flagE ∨ i.mnemonic ∉ [.jeq, .jne]) :
    ∃ u, exec i (s.setFl f) = .next u ∧ u.setFl t.fl = t := by
  rcases exec_cases h with hc | ⟨a, hb, rfl⟩
  · obtain ⟨u, hu, hut⟩ := hc.setFl f hE
    exact ⟨u, hu.exec_eq, hut⟩
  · exact ⟨_, exec_of_firstBadOperand (s.setFl f) hb, rfl⟩

/-- Two different conditions choose differently between two different values. -/
theorem ite_ne_ite_of_ne {b c : Bool} {x y : Byte} (hbc : b ≠ c) (hxy : x ≠ y) :
    (if b then x else y) ≠ (if c then x else y) := by
  obtain rfl : b = !c := Bool.eq_not_iff.mpr hbc
  cases c with
  | false => exact hxy
  | true => exact hxy.symm

/-- JEQ and JNE read E: with the other E the next PC is the other of the register and PC plus 2. -/
theorem branch_reads_flagE {r : RegIndex} {s : State} {f : Byte} {i : Instr}
    (hi : i ∈ [.jeq (regOperand r), .jne (regOperand r)]) (hr : s.reg r ≠ s.pc + 2)
    (hE : (s.setFl f).flagE ≠ s.flagE) :
    ∃ t u, exec i s = .next t ∧ exec i (s.setFl f) = .next u ∧ u.pc ≠ t.pc := by
  obtain rfl | rfl : i = .jeq (regOperand r) ∨ i = .jne (regOperand r) := by simpa using hi
  · exact ⟨_, _, (Completes.jeq r).exec_eq, (Completes.jeq r).exec_eq, ite_ne_ite_of_ne hE hr⟩
  · exact ⟨_, _, (Completes.jne r).exec_eq, (Completes.jne r).exec_eq, ite_ne_ite_of_ne hE hr.symm⟩

/-- Settles O26: the writers by `exec_fl`, CMP by the legality of the FL it computes, the readers by `exec_setFl` and
`branch_reads_flagE`. -/
theorem flagsReadersAndWriters : Obligations.FlagsReadersAndWriters := by
  refine ⟨fun _ _ _ h hi => exec_fl h hi, fun ra rb s f => ?_, fun _ _ _ f h hE => exec_setFl h f hE,
    fun _ _ _ _ hi hr hE => branch_reads_flagE hi hr hE⟩
  exact ⟨_, _, (Completes.cmp ra rb).exec_eq, (Completes.cmp ra rb).exec_eq, rfl,
    State.at_most_one_flag (legalFlags_compareFlags (s.reg ra) (s.reg rb))⟩

/-! ### The output port (R35) -/

/-- The bytes an instruction appends to OUT: the register's byte for a PRN of a register, nothing otherwise (R27, R80). -/
def emitted (s : State) : Instr → List Byte
  | .prn a => ((registerIndex a).map s.reg).toList
  | _ => []

@[simp] theorem emitted_prn (s : State) (r : RegIndex) : emitted s (.prn (regOperand r)) = [s.reg r] := by
  simp [emitted]

theorem eq_prn_of_emitted_ne_nil {s : State} {i : Instr} (h : emitted s i ≠ []) : ∃ r, i = .prn (regOperand r) := by
  unfold emitted at h
  split at h
  · next a =>
    cases ha : registerIndex a with
    | none => simp [ha] at h
    | some r => exact ⟨r, by rw [registerIndex_eq_some.mp ha]⟩
  · exact absurd rfl h

theorem emitted_of_firstBadOperand {i : Instr} {a : Byte} (s : State) (h : i.firstBadOperand = some a) :
    emitted s i = [] := by
  by_contra he
  obtain ⟨r, rfl⟩ := eq_prn_of_emitted_ne_nil he
  simp [Instr.firstBadOperand, Instr.registerOperands] at h

theorem Completes.out_eq {s t : State} {i : Instr} (h : Completes s i t) : t.out = s.out ++ emitted s i := by
  cases h with
  | prn r => simp
  | hlt | ldi | mul | add | push | pop | call | ret | cmp | jmp | jeq | jne => simp [emitted]

theorem exec_out {i : Instr} {s t : State} (h : exec i s = .next t) : t.out = s.out ++ emitted s i := by
  rcases exec_cases h with hc | ⟨a, hb, rfl⟩
  · exact hc.out_eq
  · simp [emitted_of_firstBadOperand s hb]

/-- With another OUT before, an instruction gives the same next state but for OUT. -/
theorem Completes.setOut {s t : State} {i : Instr} (h : Completes s i t) (o : List Byte) :
    ∃ u, Completes { s with out := o } i u ∧ { u with out := t.out } = t := by
  cases h <;> exact ⟨_, by constructor, rfl⟩

theorem exec_setOut {i : Instr} {s t : State} (h : exec i s = .next t) (o : List Byte) :
    exec i { s with out := o } = .next { t with out := o ++ emitted s i } := by
  obtain ⟨u, hu, hut⟩ : ∃ u, exec i { s with out := o } = .next u ∧ { u with out := t.out } = t := by
    rcases exec_cases h with hc | ⟨a, hb, rfl⟩
    · obtain ⟨u, hu, hut⟩ := hc.setOut o
      exact ⟨u, hu.exec_eq, hut⟩
    · exact ⟨_, exec_of_firstBadOperand _ hb, rfl⟩
  have ho : u.out = o ++ emitted s i := exec_out hu
  rw [hu, ← hut, ← ho]

/-- Settles O28: a step that runs no instruction appends nothing, and one that runs `i` appends `emitted s i`. -/
theorem outputAppendsOncePerPrn : Obligations.OutputAppendsOncePerPrn := by
  intro s t h
  rcases step_cases h with ⟨hn, rfl⟩ | ⟨ir, hr, hd, rfl⟩ | ⟨i, hr, hd, he⟩
  · refine ⟨[], by simp, fun r hr => absurd hr hn, by simp, fun s' hs' => ?_⟩
    rw [hs']
    exact ⟨_, step_of_terminal hn, by simp⟩
  · refine ⟨[], by simp, fun r _ hp => by simp [hd] at hp, by simp, fun s' hs' => ?_⟩
    rw [hs']
    exact ⟨_, step_of_unrecognizedOpcode hr hd, by simp [State.raise, State.setRunState]⟩
  · refine ⟨emitted s i, exec_out he, fun r _ hp => ?_, fun hne => ⟨hr, ?_⟩, fun s' hs' => ?_⟩
    · obtain rfl : i = .prn (regOperand r) := by simpa [hd] using hp
      exact emitted_prn s r
    · obtain ⟨r, rfl⟩ := eq_prn_of_emitted_ne_nil hne
      exact ⟨r, hd⟩
    · rw [hs']
      exact ⟨_, (step_of_instr (s := { s with out := s'.out }) hr hd).trans (exec_setOut he s'.out), rfl⟩

end Sys2Proof.Machine

/-! How long an instruction is (R53), how far a step advances PC (R65), and which fetched bytes it uses (R58). -/

namespace Sys2Proof

/-! ### The length (R53) -/

theorem operandCount_toNat (ir : Byte) : (operandCount ir).toNat = ir.toNat / 64 := by
  simp [operandCount, Nat.shiftRight_eq_div_pow]

theorem instrLength_toNat (ir : Byte) : (instrLength ir).toNat = 1 + ir.toNat / 64 := by
  have hlt := ir.isLt
  have hone : (1 : Byte).toNat = 1 := rfl
  rw [instrLength, BitVec.toNat_add, operandCount_toNat, hone]
  exact Nat.mod_eq_of_lt (by omega)

theorem formatOperands_le (f : Format) : formatOperands f ≤ 2 := by cases f <;> decide

theorem operandBytes_length (i : Instr) : (operandBytes i).length = formatOperands (formatOf i.mnemonic) := by
  cases i <;> rfl

theorem operandBytes_length_eq_div (i : Instr) : (operandBytes i).length = (opcodeOf i.mnemonic).toNat / 64 := by
  rw [operandBytes_length, ← operandCount_opcodeOf, operandCount_toNat]

theorem encode_length (i : Instr) : (encode i).length = 1 + formatOperands (formatOf i.mnemonic) := by
  rw [encode, List.length_cons, operandBytes_length, Nat.add_comm]

theorem encode_length_eq_div (i : Instr) : (encode i).length = 1 + (opcodeOf i.mnemonic).toNat / 64 := by
  rw [encode_length, ← operandCount_opcodeOf, operandCount_toNat]

theorem encode_length_of_decode {ir a b : Byte} {i : Instr} (h : decode ir a b = .instr i) :
    (encode i).length = 1 + ir.toNat / 64 := by
  obtain ⟨rfl, -⟩ := decode_eq_instr.mp h
  exact encode_length_eq_div i

/-- Settles O31: the operand bytes are as many as the opcode byte's row says, and a decoded instruction has that row. -/
theorem lengthFromOpcode : Obligations.LengthFromOpcode := by
  refine ⟨fun i => ⟨opcodeOf i.mnemonic, operandBytes i, rfl, ?_, operandBytes_length_eq_div i,
    encode_length_eq_div i⟩, fun ir a b a' b' i j hi hj => ?_⟩
  · rw [operandBytes_length]
    exact formatOperands_le _
  · rw [encode_length_of_decode hi, encode_length_of_decode hj]

/-! ### The operand bytes a decoding uses (R56, R59) -/

/-- Two pairs of operand bytes that agree where the row's format looks assemble to one instruction. -/
theorem assemble_congr {m : Mnemonic} {a b a' b' : Byte} (ha : 1 ≤ formatOperands (formatOf m) → a' = a)
    (hb : 2 ≤ formatOperands (formatOf m) → b' = b) : assemble m a' b' = assemble m a b := by
  cases m with
  | hlt | ret => rfl
  | prn | push | pop | call | jmp | jeq | jne => rw [ha (by decide)]; rfl
  | ldi | mul | add | cmp => rw [ha (by decide), hb (by decide)]

theorem decode_congr {ir a b a' b' : Byte} {i : Instr} (h : decode ir a b = .instr i)
    (ha : 1 < (encode i).length → a' = a) (hb : 2 < (encode i).length → b' = b) : decode ir a' b' = .instr i := by
  obtain ⟨hir, hi⟩ := decode_eq_instr.mp h
  rw [encode_length] at ha hb
  exact decode_eq_instr.mpr ⟨hir, hi.trans (assemble_congr (fun _ => ha (by omega)) (fun _ => hb (by omega))).symm⟩

end Sys2Proof

namespace Sys2Proof.Machine

/-! ### The automatic advance (R65) -/

/-- An instruction that is not PC-setting advances PC by its row's length. -/
theorem Completes.pc_eq {s t : State} {i : Instr} (h : Completes s i t) (hp : setsPc i.mnemonic = false) :
    t.pc = s.pc + instrLength (opcodeOf i.mnemonic) := by
  cases h with
  | hlt | ldi | prn | mul | add | push | pop | cmp => simp [State.endStep_pc, setsPc, Instr.mnemonic]
  | call | ret | jmp | jeq | jne => cases hp

/-- The sets-PC column (R60, R66) as a list. -/
theorem setsPc_eq_false {m : Mnemonic} : setsPc m = false ↔ m ∉ [.call, .ret, .jmp, .jeq, .jne] := by
  cases m <;> decide

/-- Settles O23: the instruction completes, `Completes.pc_eq` gives its advance, and IR is its row's opcode byte. -/
theorem automaticAdvance : Obligations.AutomaticAdvance := by
  intro s i hr hd hw hp
  obtain ⟨t, ht⟩ := exists_completes_of_wellFormed hw s
  have hpc : t.pc = s.pc + instrLength (opcodeOf i.mnemonic) := ht.pc_eq (setsPc_eq_false.mpr hp)
  refine ⟨t, (step_of_instr hr hd).trans ht.exec_eq, ?_, ?_⟩
  · obtain ⟨hir, -⟩ := decode_eq_instr.mp hd
    rw [hpc, ← hir, BitVec.toNat_add, instrLength_toNat, Nat.add_assoc]
  · rintro rfl
    exact ⟨by simpa using ht.runState_eq, hpc⟩

/-! ### The fetched bytes an instruction does not use (R58) -/

/-- A byte written outside the addresses of the instruction's own bytes leaves the decoding as it was. -/
theorem fetchDecode_writeMem_outside {s : State} {i : Instr} {c : Byte} (v : Byte) (hd : fetchDecode s = .instr i)
    (hc : ∀ k < (encode i).length, s.pc + BitVec.ofNat 8 k ≠ c) : fetchDecode (s.writeMem c v) = .instr i := by
  have hir : (s.writeMem c v).readMem s.pc = s.readMem s.pc :=
    State.readMem_writeMem_other s v (by simpa using hc 0 (by simp [encode]))
  unfold fetchDecode fetchWindow
  rw [State.writeMem_pc, hir]
  exact decode_congr hd (fun h1 => State.readMem_writeMem_other s v (hc 1 h1))
    (fun h2 => State.readMem_writeMem_other s v (hc 2 h2))

/-- An offset past the instruction's length, and inside the fetch window, is none of its own addresses. -/
theorem pc_add_ne_of_length_le {i : Instr} {n : Nat} (p : Byte) (hn : n < 256) (hl : (encode i).length ≤ n) :
    ∀ k < (encode i).length, p + BitVec.ofNat 8 k ≠ p + BitVec.ofNat 8 n := by
  intro k hk h
  have hkn : (BitVec.ofNat 8 k).toNat = (BitVec.ofNat 8 n).toNat := congrArg _ ((BitVec.add_right_inj p).mp h)
  simp only [BitVec.toNat_ofNat] at hkn
  omega

/-- Settles O24: `fetchDecode_writeMem_outside` at the two fetched addresses past the instruction's bytes. -/
theorem operandPrefetchHarmless : Obligations.OperandPrefetchHarmless := by
  refine ⟨fun _ => rfl, fun _ _ hr hd => step_of_instr hr hd, fun s i v hd => ⟨fun hl => ?_, fun hl => ?_⟩⟩
  · have hd' := fetchDecode_writeMem_outside v hd (pc_add_ne_of_length_le s.pc (n := 1) (by decide) hl.le)
    exact ⟨hd', fun hr => step_of_instr hr hd'⟩
  · have hd' := fetchDecode_writeMem_outside v hd (pc_add_ne_of_length_le s.pc (n := 2) (by decide) hl)
    exact ⟨hd', fun hr => step_of_instr hr hd'⟩

end Sys2Proof.Machine

/-! The registers an instruction writes (R16), which names the ways to move SP (R79), and the statements about LDI and PRN
(R79, R80). -/

namespace Sys2Proof.Machine

/-! ### The registers an instruction writes (R16) -/

theorem mem_toList_registerIndex {a : Byte} {r : RegIndex} : r ∈ (registerIndex a).toList ↔ a = regOperand r :=
  Option.mem_toList.trans registerIndex_eq_some

theorem Completes.sameRegistersExcept {s t : State} {i : Instr} (h : Completes s i t) :
    SameRegistersExcept (regsWritten i) s t := by
  intro q hq
  cases h with
  | hlt | prn | cmp | jmp | jeq | jne => simp [alu]
  | ldi r v =>
    have hqr : q ≠ r := by simpa [regsWritten] using hq
    simpa using State.reg_setReg_other s v hqr
  | mul r b | add r b =>
    have hqr : q ≠ r := by simpa [regsWritten] using hq
    simpa using reg_alu_other _ b s hqr
  | push | call =>
    have hq7 : q ≠ Config.spIndex := by simpa [regsWritten, Config.spIndex] using hq
    simp [State.reg_pushByte, hq7]
  | ret =>
    have hq7 : q ≠ Config.spIndex := by simpa [regsWritten, Config.spIndex] using hq
    simp [State.reg_incSp, hq7]
  | pop r =>
    obtain ⟨hq7, hqr⟩ : q ≠ Config.spIndex ∧ q ≠ r := by simpa [regsWritten, Config.spIndex] using hq
    simp [State.reg_incSp, hq7, State.reg_setReg_other s _ hqr]

/-- Completed or faulted, an instruction writes no register but those of its row of R16's table. -/
theorem exec_sameRegistersExcept {i : Instr} {s t : State} (h : exec i s = .next t) :
    SameRegistersExcept (regsWritten i) s t := by
  rcases exec_cases h with hc | ⟨a, -, rfl⟩
  · exact hc.sameRegistersExcept
  · exact fun _ _ => rfl

/-- The instructions whose row of R16's table writes SP (R79). -/
theorem cases_of_sp_mem_regsWritten {i : Instr} (h : Config.spIndex ∈ regsWritten i) :
    (∃ v, i = .ldi (regOperand 7) v) ∨ i.mnemonic ∈ [.push, .pop, .call, .ret] ∨
      (∃ b, i = .add (regOperand 7) b) ∨ (∃ b, i = .mul (regOperand 7) b) := by
  cases i with
  | hlt | prn | cmp | jmp | jeq | jne => simp [regsWritten] at h
  | push | pop | call | ret => exact .inr (.inl (by simp [Instr.mnemonic]))
  | ldi a v =>
    obtain rfl := mem_toList_registerIndex.mp h
    exact .inl ⟨v, rfl⟩
  | add a b =>
    obtain rfl := mem_toList_registerIndex.mp h
    exact .inr (.inr (.inl ⟨b, rfl⟩))
  | mul a b =>
    obtain rfl := mem_toList_registerIndex.mp h
    exact .inr (.inr (.inr ⟨b, rfl⟩))

/-! ### LDI and PRN (R79, R80) -/

theorem instrLength_ldi : instrLength (opcodeOf .ldi) = 3 := by decide

theorem instrLength_prn : instrLength (opcodeOf .prn) = 2 := by decide

/-- Settles O2: the effect and frame are those of `Completes.ldi`, and an instruction that moves SP has SP among the
registers its row of R16's table writes. -/
theorem ldiLoadsImmediate : Obligations.LdiLoadsImmediate := by
  refine ⟨fun _ _ => rfl, fun r v s => ?_, fun a v s ha => ⟨_, _, _, withRegister_bad s _ ha⟩, fun i s t h hsp => ?_⟩
  · have hc : Completes s _ _ := .ldi r v
    refine ⟨_, hc.exec_eq, by simp, (hc.pc_eq rfl).trans (congrArg _ instrLength_ldi), ?_, fun _ _ => by simp,
      by simp [SameFlagsRunOut]⟩
    simpa [regsWritten] using hc.sameRegistersExcept
  · refine cases_of_sp_mem_regsWritten ?_
    by_contra hn
    exact hsp (exec_sameRegistersExcept h Config.spIndex hn)

/-- Settles O3: the emission and frame are those of `Completes.prn`, and `raise` leaves OUT as it was. -/
theorem prnEmitsRegister : Obligations.PrnEmitsRegister := by
  refine ⟨fun _ => rfl, fun r s => ?_, fun a s ha => ⟨_, _, _, _, withRegister_bad s _ ha, rfl, rfl⟩⟩
  have hc : Completes s _ _ := .prn r
  exact ⟨_, hc.exec_eq, by simp, (hc.pc_eq rfl).trans (congrArg _ instrLength_prn), hc.sameRegistersExcept,
    fun _ _ => by simp, by simp, by simp⟩

end Sys2Proof.Machine

/-! Decode and encode (R56, R59, R60), the bytes of no row (R61), and the layout of the opcode byte (R55). -/

namespace Sys2Proof

theorem operandBytes_isPrefix_iff {i : Instr} {a b : Byte} :
    operandBytes i <+: [a, b] ↔ i = assemble i.mnemonic a b := by
  cases i with
  | hlt | ret => simp [operandBytes, assemble, Instr.mnemonic]
  | prn | push | pop | call | jmp | jeq | jne => simp [operandBytes, assemble, Instr.mnemonic]
  | ldi | mul | add | cmp => simp [operandBytes, assemble, Instr.mnemonic]

/-- Three bytes begin with an instruction's encoding exactly when the first is its row's opcode byte and the row assembles
the other two to it. -/
theorem encode_isPrefix_iff {i : Instr} {ir a b : Byte} :
    encode i <+: [ir, a, b] ↔ ir = opcodeOf i.mnemonic ∧ i = assemble i.mnemonic a b := by
  rw [encode, List.cons_prefix_cons, operandBytes_isPrefix_iff, eq_comm]

/-- Settles O32: both sides say that the first byte is the row's opcode and the operands are the bytes after it. -/
theorem decodeEncodeAgree : Obligations.DecodeEncodeAgree := by
  refine fun i => ⟨?_, fun ir a b => decode_eq_instr.trans encode_isPrefix_iff.symm⟩
  have hle := formatOperands_le (formatOf i.mnemonic)
  rw [encode_length]
  omega

/-! ### The bytes of no row (R61) -/

/-- The values of the opcode map (R60), in the table's order. -/
theorem opcode_values : allMnemonics.map (fun m => (opcodeOf m).toNat) =
    [0x01, 0x82, 0x47, 0xA2, 0xA0, 0x45, 0x46, 0x50, 0x11, 0xA7, 0x54, 0x55, 0x56] := by decide

theorem decodeMnemonic_eq_none_iff_toNat {ir : Byte} :
    decodeMnemonic ir = none ↔ ir.toNat ∉ allMnemonics.map (fun m => (opcodeOf m).toNat) := by
  rw [decodeMnemonic_eq_none, List.mem_map]
  constructor
  · rintro h ⟨m, -, hm⟩
    exact h m (BitVec.eq_of_toNat_eq hm.symm)
  · rintro h m rfl
    exact h ⟨m, mem_allMnemonics m, rfl⟩

/-- Settles O34: the listed ranges are the gaps between the 13 values of the opcode map. -/
theorem unrecognizedBytes : Obligations.UnrecognizedBytes := by
  intro ir a b
  have hlt := ir.isLt
  rw [decode_eq_unrecognizedOpcode, decodeMnemonic_eq_none_iff_toNat, opcode_values]
  simp only [List.mem_cons, List.not_mem_nil, or_false, and_true]
  omega

/-! ### The rows of the opcode map (R55, R60) -/

/-- Settles O33: each first byte is its row's opcode, and the row assembles the bytes after it. -/
theorem opcodeMapWords : Obligations.OpcodeMapWords :=
  ⟨decode_opcodeOf .hlt _ _, decode_opcodeOf .ldi _ _, decode_opcodeOf .prn _ _, decode_opcodeOf .mul _ _,
    decode_opcodeOf .add _ _, decode_opcodeOf .push _ _, decode_opcodeOf .pop _ _, decode_opcodeOf .call _ _,
    decode_opcodeOf .ret _ _, decode_opcodeOf .cmp _ _, decode_opcodeOf .jmp _ _, decode_opcodeOf .jeq _ _,
    decode_opcodeOf .jne _ _⟩

/-- Settles O35: the two bits of each of the 13 rows. -/
theorem opcodeBitLayout : Obligations.OpcodeBitLayout := by
  intro m
  cases m <;> decide

end Sys2Proof

/-! The causes of a fault (R101 to R106), that every step answers a next state (R64, R67), and the invariant every step
keeps (R21, R23, R78, R102, R103). -/

namespace Sys2Proof.Machine

/-! ### Every step answers a next state (R64, R67) -/

theorem exists_exec_eq_next (i : Instr) (s : State) : ∃ t, exec i s = .next t := by
  cases hb : i.firstBadOperand with
  | none =>
    obtain ⟨t, ht⟩ := exists_completes_of_wellFormed (firstBadOperand_eq_none.mp hb) s
    exact ⟨t, ht.exec_eq⟩
  | some a => exact ⟨_, exec_of_firstBadOperand s hb⟩

theorem exists_step_eq_next (s : State) : ∃ t, step s = .next t := by
  by_cases hr : s.runState = .running
  · cases hd : fetchDecode s with
    | instr i =>
      rw [step_of_instr hr hd]
      exact exists_exec_eq_next i s
    | unrecognizedOpcode ir => exact ⟨_, step_of_unrecognizedOpcode hr hd⟩
  · exact ⟨s, step_of_terminal hr⟩

/-- Settles O21: an idle step, a fault and an executed instruction all answer a next state. -/
theorem everyStepAnswersNext : Obligations.EveryStepAnswersNext := exists_step_eq_next

/-- Settles O20: `step_of_terminal`. -/
theorem terminalStepDoesNothing : Obligations.TerminalStepDoesNothing := fun _ hn => step_of_terminal hn

/-- Settles O22: `step_of_instr` at the fetched bytes. -/
theorem stepRunsDecoded : Obligations.StepRunsDecoded := fun _ _ hr hd => step_of_instr hr hd

/-! ### The causes of a fault (R101 to R106) -/

theorem fetchDecode_eq_unrecognizedOpcode {s : State} {ir : Byte} :
    fetchDecode s = .unrecognizedOpcode ir ↔ (∀ m, s.readMem s.pc ≠ opcodeOf m) ∧ ir = s.readMem s.pc :=
  decode_eq_unrecognizedOpcode.trans (and_congr_left' decodeMnemonic_eq_none)

/-- Settles O16: `exec_of_firstBadOperand`. -/
theorem badRegisterOperandFaults : Obligations.BadRegisterOperandFaults :=
  fun _ s _ hb => exec_of_firstBadOperand s hb

/-- Settles O17: a byte of no row is rejected by the decoder, and the step takes the fault. -/
theorem unrecognizedOpcodeFaults : Obligations.UnrecognizedOpcodeFaults :=
  fun _ hr hm => step_of_unrecognizedOpcode hr (fetchDecode_eq_unrecognizedOpcode.mpr ⟨hm, rfl⟩)

/-- A completed instruction of a running machine enters no fault. -/
theorem Completes.runState_ne_faulted {s t : State} {i : Instr} (h : Completes s i t) (hr : s.runState = .running)
    (f : FaultRecord) : t.runState ≠ .faulted f := by
  rw [h.runState_eq, hr]
  split <;> simp

/-- Settles O18: of what a step can do, only the rejected byte and the bad register operand end in Faulted. -/
theorem faultsOnlyForTheirCauses : Obligations.FaultsOnlyForTheirCauses := by
  intro s t f hr h hf
  rcases step_cases h with ⟨hn, -⟩ | ⟨ir, -, hd, rfl⟩ | ⟨i, -, hd, he⟩
  · exact absurd hr hn
  · obtain ⟨hm, rfl⟩ := fetchDecode_eq_unrecognizedOpcode.mp hd
    exact .inl ⟨hm, by simpa using hf.symm⟩
  · rcases exec_cases he with hc | ⟨a, hb, rfl⟩
    · exact absurd hf (hc.runState_ne_faulted hr f)
    · obtain ⟨hir, -⟩ := decode_eq_instr.mp hd
      have hir : s.readMem s.pc = opcodeOf i.mnemonic := hir
      exact .inr ⟨i, a, hd, hb, by simpa [hir] using hf.symm⟩

/-! ### The record of a bad register operand (R103, R106) -/

/-- The first bad operand of an assembled instruction is the byte for operand_a, or the byte for operand_b after an operand_a
that names a register. -/
theorem firstBadOperand_assemble {m : Mnemonic} {a b c : Byte} (h : (assemble m a b).firstBadOperand = some c) :
    8 ≤ c.toNat ∧ (c = a ∨ (a.toNat < 8 ∧ c = b)) := by
  have hc : 8 ≤ c.toNat := by
    rw [← namesRegister_eq_false]
    simpa using List.find?_some h
  refine ⟨hc, ?_⟩
  have two (h : [a, b].find? (fun x => !namesRegister x) = some c) : c = a ∨ (a.toNat < 8 ∧ c = b) := by
    cases ha : namesRegister a with
    | true => exact .inr ⟨by simpa [namesRegister] using ha, by simp_all⟩
    | false => exact .inl (by simpa [ha] using h.symm)
  cases m with
  | hlt | ret => cases h
  | ldi | prn | push | pop | call | jmp | jeq | jne => exact .inl (List.mem_singleton.mp (List.mem_of_find?_eq_some h))
  | mul | add | cmp => exact two h

/-! ### The invariant -/

theorem Completes.mem_wf {s t : State} {i : Instr} (h : Completes s i t) (hw : Memory.wf s.mem) : Memory.wf t.mem := by
  cases h with
  | push | call => simpa using State.wf_pushByte _ hw
  | hlt | ldi | prn | mul | add | pop | ret | cmp | jmp | jeq | jne => simpa using hw

theorem Completes.fl_legal {s t : State} {i : Instr} (h : Completes s i t) (hl : legalFlags s.fl) : legalFlags t.fl := by
  cases h with
  | cmp r q => simpa [alu_fl] using legalFlags_compareFlags (s.reg r) (s.reg q)
  | hlt | ldi | prn | mul | add | push | pop | call | ret | jmp | jeq | jne => simpa [alu_fl] using hl

theorem State.recordSound_of_running {s : State} (hr : s.runState = .running) : s.recordSound := by
  simp [State.recordSound, hr]

/-- A running machine's completed instruction leaves a sound run state: it is still Running, or the instruction was HLT, whose
opcode stands before the advanced PC. -/
theorem Completes.recordSound {s t : State} {i : Instr} (h : Completes s i t) (hr : s.runState = .running)
    (hir : s.readMem s.pc = opcodeOf i.mnemonic) : t.recordSound := by
  by_cases hi : i = .hlt
  · subst hi
    cases h
    exact (congrArg s.readMem (add_sub_cancel_right s.pc 1)).trans hir
  · exact State.recordSound_of_running (by rw [h.runState_eq, if_neg hi, hr])

theorem StateInv.raise {s : State} {f : FaultRecord} (h : StateInv s) (hf : (s.raise f).recordSound) :
    StateInv (s.raise f) := ⟨h.mem_wf, h.fl_legal, hf⟩

theorem stateInv_of_exec {s t : State} {i : Instr} (h : StateInv s) (hr : s.runState = .running)
    (hd : fetchDecode s = .instr i) (he : exec i s = .next t) : StateInv t := by
  obtain ⟨hir, hi⟩ := decode_eq_instr.mp hd
  rcases exec_cases he with hc | ⟨a, hb, rfl⟩
  · exact ⟨hc.mem_wf h.mem_wf, hc.fl_legal h.fl_legal, hc.recordSound hr hir⟩
  · rw [hi] at hb
    obtain ⟨ha, hwhich⟩ := firstBadOperand_assemble hb
    refine h.raise ⟨rfl, hir.symm, ha, ?_, hwhich⟩
    simp

/-- Settles O38: memory is empty, FL is 0 and RS is Running. -/
theorem resetInvariant : Obligations.ResetInvariant := ⟨reset_mem_wf, .inl rfl, trivial⟩

/-- Settles O39: by what a step can do; a fault's record is true of the state that takes it. -/
theorem stepKeepsInvariant : Obligations.StepKeepsInvariant := by
  intro s t hs h
  rcases step_cases h with ⟨-, rfl⟩ | ⟨ir, -, hd, rfl⟩ | ⟨i, hr, hd, he⟩
  · exact hs
  · obtain ⟨hm, rfl⟩ := fetchDecode_eq_unrecognizedOpcode.mp hd
    exact hs.raise ⟨rfl, rfl, decodeMnemonic_eq_none.mpr hm⟩
  · exact stateInv_of_exec hs hr hd he

end Sys2Proof.Machine

/-! The canonical form of memory makes reads determine it (R43, R48), and from that and the reads after writes the statements
about the ports (R31, R33, R44 to R46, R120) and the word placed for the next step (log 16). -/

namespace Sys2Proof.Machine

/-! ### The canonical form -/

theorem Memory.wf_of_cons {c : Host.Cell} {m : Memory} (h : Memory.wf (c :: m)) : Memory.wf m :=
  ⟨h.1.of_cons, fun d hd => h.2 d (List.mem_cons_of_mem c hd)⟩

theorem Memory.read_of_forall_ne {m : Memory} {a : Nat} (h : ∀ c ∈ m, c.1 ≠ a) : Memory.read m a = Memory.unlisted := by
  induction m with
  | nil => rfl
  | cons c m ih =>
    rw [Memory.read, if_neg (h c (by simp))]
    exact ih fun d hd => h d (List.mem_cons_of_mem c hd)

/-- A canonical memory lists exactly the cells that do not read as unlisted. -/
theorem Memory.mem_iff_read {m : Memory} (h : Memory.wf m) (a : Nat) (v : Byte) :
    (a, v) ∈ m ↔ Memory.read m a = v ∧ v ≠ Memory.unlisted := by
  induction m with
  | nil => simp [Memory.read, eq_comm]
  | cons c m ih =>
    obtain ⟨k, w⟩ := c
    have ih := ih (Memory.wf_of_cons h)
    have hlt : ∀ d ∈ m, k < d.1 := (List.pairwise_cons.mp h.1).1
    have hw : w ≠ Memory.unlisted := (h.2 (k, w) (by simp)).2
    by_cases hk : k = a
    · subst hk
      have hnot : (k, v) ∉ m := fun hm => lt_irrefl k (hlt _ hm)
      simp only [List.mem_cons, Prod.mk.injEq, hnot, or_false, true_and, Memory.read, if_true]
      constructor
      · rintro rfl
        exact ⟨rfl, hw⟩
      · rintro ⟨rfl, -⟩
        rfl
    · simp [Memory.read, hk, Ne.symm hk, ih]

/-- Canonical memories with the same reads list the same cells, both in rising order. -/
theorem Memory.ext {m n : Memory} (hm : Memory.wf m) (hn : Memory.wf n) (h : ∀ a, Memory.read m a = Memory.read n a) :
    m = n := by
  have : Std.Irrefl (fun c d : Host.Cell => c.1 < d.1) := ⟨fun c => lt_irrefl c.1⟩
  have : Std.Antisymm (fun c d : Host.Cell => c.1 < d.1) := ⟨fun _ _ hcd hdc => absurd hcd hdc.asymm⟩
  refine hm.1.eq_of_mem_iff hn.1 fun ⟨a, v⟩ => ?_
  rw [Memory.mem_iff_read hm, Memory.mem_iff_read hn, h a]

/-- Settles O40: `Memory.ext`. -/
theorem memoryCanonical : Obligations.MemoryCanonical := fun _ _ hm hn h => Memory.ext hm hn h

/-! ### Writes compose (R43, R48) -/

/-- States that differ at most in memory are equal where their memories are canonical and read the same. -/
theorem State.eq_of_read {s t : State} (hs : Memory.wf s.mem) (ht : Memory.wf t.mem) (hst : { s with mem := t.mem } = t)
    (h : ∀ a : Nat, Memory.read s.mem a = Memory.read t.mem a) : s = t := by
  rw [← hst, ← Memory.ext hs ht h]

theorem State.writeMem_writeMem_same {s : State} (hs : Memory.wf s.mem) (a v w : Byte) :
    (s.writeMem a v).writeMem a w = s.writeMem a w := by
  refine State.eq_of_read (State.wf_writeMem a w (State.wf_writeMem a v hs)) (State.wf_writeMem a w hs) rfl fun c => ?_
  simp only [State.writeMem_mem, Memory.read_write]
  split <;> rfl

theorem State.writeMem_readMem {s : State} (hs : Memory.wf s.mem) (a : Byte) : s.writeMem a (s.readMem a) = s := by
  refine State.eq_of_read (State.wf_writeMem a _ hs) hs rfl fun c => ?_
  rw [State.writeMem_mem, Memory.read_write]
  split
  · next hc => rw [hc, State.readMem]
  · rfl

theorem State.writeMem_comm {s : State} (hs : Memory.wf s.mem) {a b : Byte} (v w : Byte) (hab : a ≠ b) :
    (s.writeMem a v).writeMem b w = (s.writeMem b w).writeMem a v := by
  refine State.eq_of_read (State.wf_writeMem b w (State.wf_writeMem a v hs))
    (State.wf_writeMem a v (State.wf_writeMem b w hs)) rfl fun c => ?_
  have hne : a.toNat ≠ b.toNat := mt BitVec.eq_of_toNat_eq hab
  simp only [State.writeMem_mem, Memory.read_write]
  by_cases hca : c = a.toNat
  · simp [hca, hne]
  · simp [hca]

/-- Settles O41: each pair of memories is canonical and reads the same at every address. -/
theorem writesCompose : Obligations.WritesCompose := fun _ a _ v w hs =>
  ⟨State.writeMem_writeMem_same hs a v w, State.writeMem_readMem hs a, State.writeMem_comm hs v w⟩

/-! ### Reset (R31, R120) -/

/-- Settles O37: the register values are those of the literal of `State.reset`, and an empty memory reads as unlisted. -/
theorem resetValues : Obligations.ResetValues := by
  refine fun s => ⟨fun a => rfl, fun r hr => ?_, rfl, rfl, rfl, rfl, rfl⟩
  show State.reset.reg r = 0
  revert r
  decide

/-! ### The load port (R44 to R46) -/

theorem loadPort_of_lt {seq : List LoadItem} (s : State) (h : 256 < (loadValues seq).length) :
    loadPort seq s = .refused .loadOverflow := if_pos h

theorem loadPort_of_le {seq : List LoadItem} (s : State) (h : (loadValues seq).length ≤ 256) :
    loadPort seq s = .next (s.writeBytes 0 (loadValues seq)) := if_neg (Nat.not_lt.mpr h)

/-- Settles O42: the accepted load is a byte string stored from address 0, which `State.readMem_writeBytes` reads. -/
theorem loadWritesFromZero : Obligations.LoadWritesFromZero := by
  refine ⟨fun seq => ?_, fun seq s h => loadPort_of_lt s h, fun seq s h => ⟨_, loadPort_of_le s h, fun k hk => ?_,
    fun a ha => ?_, by simp, by simp, by simp [SameFlagsRunOut]⟩⟩
  · induction seq with
    | nil => rfl
    | cons x seq ih =>
      cases x with
      | byte v => simp [loadValues, ih]
      | ignore => simp [loadValues, ih]
  · have hk8 : (BitVec.ofNat 8 k).toNat = k := Nat.mod_eq_of_lt (by omega)
    have hread := State.readMem_writeBytes (loadValues seq) s 0 (by omega) (BitVec.ofNat 8 k)
    simpa [hk8, hk] using hread
  · have hread := State.readMem_writeBytes (loadValues seq) s 0 (by omega) a
    simpa [Nat.not_lt.mpr ha] using hread

/-! ### The host accessors (R33) -/

theorem readMemory_eq (n : Nat) (s : State) : readMemory n s =
    if n < 256 then .ok (s.readMem (BitVec.ofNat 8 n)) else .error .hostRequestOutOfRange := rfl

theorem writeMemory_of_lt {n v : Nat} (s : State) (hn : n < 256) (hv : v < 256) :
    writeMemory n v s = .next (s.writeMem (BitVec.ofNat 8 n) (BitVec.ofNat 8 v)) := if_pos ⟨hn, hv⟩

theorem writeMemory_of_le {n v : Nat} (s : State) (h : 256 ≤ n ∨ 256 ≤ v) :
    writeMemory n v s = .refused .hostRequestOutOfRange :=
  if_neg fun ⟨hn, hv⟩ => h.elim (Nat.not_le.mpr hn) (Nat.not_le.mpr hv)

theorem readRegister_val (r : RegIndex) (s : State) : readRegister r.val s = .ok (s.reg r) := dif_pos r.isLt

theorem readRegister_of_le {n : Nat} (s : State) (h : 8 ≤ n) : readRegister n s = .error .hostRequestOutOfRange :=
  dif_neg (Nat.not_lt.mpr h)

theorem writeRegister_val (r : RegIndex) {v : Nat} (s : State) (hv : v < 256) :
    writeRegister r.val v s = .next (s.setReg r (BitVec.ofNat 8 v)) := (dif_pos r.isLt).trans (if_pos hv)

theorem writeRegister_of_le {n v : Nat} (s : State) (h : 8 ≤ n ∨ 256 ≤ v) :
    writeRegister n v s = .refused .hostRequestOutOfRange := by
  unfold writeRegister
  by_cases hn : n < 8
  · rw [dif_pos hn, if_neg (by omega)]
  · rw [dif_neg hn]

/-- Settles O43: each accessor's own equations, and the reads after the one write it makes. -/
theorem hostAccessors : Obligations.HostAccessors := by
  refine ⟨readMemory_eq, fun n v s hn hv => ⟨_, writeMemory_of_lt s hn hv, State.readMem_writeMem_same _ _ _,
      fun a ha => State.readMem_writeMem_other s _ (by simpa using ha), rfl, rfl, rfl, rfl, rfl⟩,
    fun n v s h => writeMemory_of_le s h, readRegister_val, fun r v s hv => ⟨_, writeRegister_val r s hv,
      State.reg_setReg_same _ _ _, fun q hq => State.reg_setReg_other s _ (by simpa using hq), rfl, rfl, rfl, rfl, rfl⟩,
    fun n v s hn => ⟨readRegister_of_le s hn, writeRegister_of_le s (.inl hn)⟩,
    fun n v s hv => writeRegister_of_le s (.inr hv)⟩

/-! ### The word placed for the next step (log 16) -/

/-- The three addresses of the window differ, also where they wrap, so each holds the byte placed there. -/
theorem fetchWindow_withFetchWord (s : State) (nbits w : Nat) :
    fetchWindow (s.withFetchWord nbits w) = ⟨tableByte nbits w 0, tableByte nbits w 1, tableByte nbits w 2⟩ := by
  have h01 : s.pc ≠ s.pc + 1 := by simp
  have h02 : s.pc ≠ s.pc + 2 := by simp
  have h12 : s.pc + 1 ≠ s.pc + 2 := by simp
  have hpc : s.pc + 1 + 1 = s.pc + 2 := add_assoc s.pc 1 1
  have hmem (a : Byte) : (s.withFetchWord nbits w).readMem a =
      (((s.writeMem s.pc (tableByte nbits w 0)).writeMem (s.pc + 1) (tableByte nbits w 1)).writeMem (s.pc + 1 + 1)
        (tableByte nbits w 2)).readMem a := rfl
  have hpc' : (s.withFetchWord nbits w).pc = s.pc := rfl
  simp only [fetchWindow, hpc', hmem, hpc, State.readMem_writeMem, h01, h02, h12, if_true, if_false]

theorem fetchDecode_withFetchWord {s : State} {nbits w : Nat} {i : Instr} (h : decodeTableWord nbits w = some i) :
    fetchDecode (s.withFetchWord nbits w) = .instr i := by
  rw [fetchDecode, fetchWindow_withFetchWord]
  unfold decodeTableWord at h
  split at h
  · next hd =>
    cases h
    exact hd
  · cases h

/-- Settles O36: the fetch window holds the placed bytes, and the stores touch nothing but memory. -/
theorem placedWordRuns : Obligations.PlacedWordRuns := fun s _ _ _ h =>
  ⟨step_of_instr rfl (fetchDecode_withFetchWord h), State.writeBytes_regs s _ _, State.writeBytes_pc s _ _,
    State.writeBytes_fl s _ _, State.writeBytes_out s _ _⟩

end Sys2Proof.Machine

/-! Which registers and memory cells an instruction reads and writes (R16, R37, R82). -/

namespace Sys2Proof.Machine

/-! ### Two states that differ in registers only -/

theorem State.sp_setReg (s : State) (r : RegIndex) (v : Byte) :
    (s.setReg r v).sp = if r = Config.spIndex then v else s.sp := by
  rw [State.sp, State.reg_setReg, State.sp]
  simp only [eq_comm]

theorem State.flagE_of_fl {s t : State} (h : t.fl = s.fl) : t.flagE = s.flagE := congrArg (fun fl => fl.getLsbD 0) h

theorem seven_eq_spIndex : (7 : RegIndex) = Config.spIndex := rfl

/-- From a state that differs only in registers the instruction does not read, the same instruction completes with the same
memory, PC, FL, RS and OUT, and writes the same bytes to registers. -/
theorem Completes.of_regsRead {s t s' : State} {i : Instr} (h : Completes s i t) (hs : s' = { s with regs := s'.regs })
    (hread : ∀ r ∈ regsRead s.flagE i, s'.reg r = s.reg r) :
    ∃ t', Completes s' i t' ∧ t'.mem = t.mem ∧ t'.pc = t.pc ∧ SameFlagsRunOut t t' ∧
      ∀ r ∈ regsWritten i, t'.reg r = t.reg r := by
  obtain ⟨hmem, hpc, hfl, hrun, hout⟩ : s'.mem = s.mem ∧ s'.pc = s.pc ∧ s'.fl = s.fl ∧ s'.runState = s.runState ∧
      s'.out = s.out := by
    rw [hs]
    exact ⟨rfl, rfl, rfl, rfl, rfl⟩
  have hE : s'.flagE = s.flagE := State.flagE_of_fl hfl
  have hcell (a : Byte) : s'.readMem a = s.readMem a := congrArg (fun m => Memory.read m a.toNat) hmem
  clear hs
  cases h with
  | hlt | ldi =>
    refine ⟨_, by constructor, ?_⟩
    simp [*, SameFlagsRunOut, State.endStep_pc, regsWritten]
  | prn r | jmp r =>
    have hr : s'.reg r = s.reg r := hread r (by simp [regsRead])
    refine ⟨_, by constructor, ?_⟩
    simp [*, SameFlagsRunOut, State.endStep_pc, regsWritten]
  | mul r q | add r q | cmp r q =>
    have hr : s'.reg r = s.reg r := hread r (by simp [regsRead])
    have hq : s'.reg q = s.reg q := hread q (by simp [regsRead])
    refine ⟨_, by constructor, ?_⟩
    simp [*, SameFlagsRunOut, State.endStep_pc, regsWritten, alu]
  | push r | call r =>
    have hsp : s'.sp = s.sp := hread 7 (by simp [regsRead])
    have hr : s'.reg r = s.reg r := hread r (by simp [regsRead])
    refine ⟨_, by constructor, ?_⟩
    simp [*, SameFlagsRunOut, State.endStep_pc, regsWritten, State.pushByte_mem, State.reg_setSp, State.reg_pushByte,
      State.afterTwoBytes, seven_eq_spIndex]
  | ret =>
    have hsp : s'.sp = s.sp := hread 7 (by simp [regsRead])
    refine ⟨_, by constructor, ?_⟩
    simp [*, SameFlagsRunOut, State.endStep_pc, regsWritten, State.reg_incSp, State.stackTop, seven_eq_spIndex]
  | pop r =>
    have hsp : s'.sp = s.sp := hread 7 (by simp [regsRead])
    refine ⟨_, by constructor, ?_⟩
    simp [*, SameFlagsRunOut, State.endStep_pc, regsWritten, State.reg_incSp, State.sp_setReg, State.stackTop,
      seven_eq_spIndex]
  | jeq r =>
    refine ⟨_, by constructor, ?_⟩
    cases hE' : s.flagE with
    | true =>
      have hr : s'.reg r = s.reg r := hread r (by simp [regsRead, hE'])
      simp [*, SameFlagsRunOut, State.endStep_pc, regsWritten]
    | false => simp [*, SameFlagsRunOut, State.endStep_pc, regsWritten, State.afterTwoBytes]
  | jne r =>
    refine ⟨_, by constructor, ?_⟩
    cases hE' : s.flagE with
    | true => simp [*, SameFlagsRunOut, State.endStep_pc, regsWritten, State.afterTwoBytes]
    | false =>
      have hr : s'.reg r = s.reg r := hread r (by simp [regsRead, hE'])
      simp [*, SameFlagsRunOut, State.endStep_pc, regsWritten]

/-- An instruction with a bad register operand writes no register that it does not also read. -/
theorem regsWritten_subset_regsRead_of_bad {i : Instr} {a : Byte} (h : i.firstBadOperand = some a) (equal : Bool) :
    regsWritten i ⊆ regsRead equal i := by
  cases i with
  | hlt | ret | prn | cmp | jmp | jeq | jne | push | call | mul | add => simp [regsWritten, regsRead]
  | ldi x v | pop x =>
    have hx : registerIndex x = none := by
      have hbad := List.find?_some h
      obtain rfl : a = x := List.mem_singleton.mp (List.mem_of_find?_eq_some h)
      simpa [namesRegister_eq_isSome] using hbad
    simp [regsWritten, regsRead, hx]

/-- Settles O29: the frame of a completed or faulted instruction, and `Completes.of_regsRead` for the reads; a faulted
instruction changes only RS, to a record that holds no register's value. -/
theorem registerReadersAndWriters : Obligations.RegisterReadersAndWriters := by
  refine ⟨fun _ _ _ h => exec_sameRegistersExcept h, fun i s t s' h hs hread => ?_⟩
  rcases exec_cases h with hc | ⟨a, hb, rfl⟩
  · obtain ⟨t', ht', heffect⟩ := hc.of_regsRead hs hread
    exact ⟨t', ht'.exec_eq, heffect⟩
  · refine ⟨_, exec_of_firstBadOperand s' hb, ?_, ?_, ?_, fun r hr =>
      hread r (regsWritten_subset_regsRead_of_bad hb s.flagE hr)⟩ <;> rw [hs]
    · rfl
    · rfl
    · exact ⟨rfl, rfl, rfl⟩

/-! ### The cells an instruction writes (R37, R82) -/

/-- The cells an instruction writes: PUSH and CALL the cell below SP, the others none (R37). Tied to the meanings by
`exec_sameMemoryExcept`. -/
def cellsWritten (s : State) : Instr → List Byte
  | .push _ | .call _ => [s.sp - 1]
  | _ => []

theorem Completes.sameMemoryExcept {s t : State} {i : Instr} (h : Completes s i t) :
    SameMemoryExcept (cellsWritten s i) s t := by
  intro a ha
  cases h with
  | push | call =>
    have hne : a ≠ s.sp - 1 := by simpa [cellsWritten] using ha
    simp only [State.readMem_endStep, State.readMem_setPc, State.readMem_pushByte, if_neg hne]
  | hlt | ldi | prn | mul | add | pop | ret | cmp | jmp | jeq | jne => simp

theorem exec_sameMemoryExcept {i : Instr} {s t : State} (h : exec i s = .next t) :
    SameMemoryExcept (cellsWritten s i) s t := by
  rcases exec_cases h with hc | ⟨a, -, rfl⟩
  · exact hc.sameMemoryExcept
  · exact fun _ _ => rfl

theorem cellsWritten_eq_nil {i : Instr} (s : State) (h : i.mnemonic ∉ [.push, .call]) : cellsWritten s i = [] := by
  cases i with
  | push | call => simp [Instr.mnemonic] at h
  | hlt | ldi | prn | mul | add | pop | ret | cmp | jmp | jeq | jne => rfl

theorem cellsWritten_subset (s : State) (i : Instr) : cellsWritten s i ⊆ [s.sp - 1] := by
  cases i <;> simp [cellsWritten]

/-- From a state that differs in memory only, and not at SP where the instruction is POP or RET, the same instruction
completes with the same registers, PC, FL, RS and OUT. -/
theorem Completes.of_mem {s t s' : State} {i : Instr} (h : Completes s i t) (hs : s' = { s with mem := s'.mem })
    (htop : i.mnemonic ∈ [.pop, .ret] → s'.readMem s.sp = s.readMem s.sp) :
    ∃ t', Completes s' i t' ∧ t'.regs = t.regs ∧ t'.pc = t.pc ∧ SameFlagsRunOut t t' := by
  generalize s'.mem = m at hs
  subst hs
  cases h with
  | pop | ret =>
    have htop : State.stackTop { s with mem := m } = s.stackTop := htop (by simp [Instr.mnemonic])
    refine ⟨_, by constructor, ?_⟩
    rw [htop]
    exact ⟨rfl, rfl, rfl, rfl, rfl⟩
  | hlt | ldi | prn | mul | add | push | call | cmp | jmp | jeq | jne =>
    refine ⟨_, by constructor, ?_⟩
    exact ⟨rfl, rfl, rfl, rfl, rfl⟩

/-- Settles O30: the cells of `cellsWritten`, and `Completes.of_mem` for the reads. -/
theorem memoryReadersAndWriters : Obligations.MemoryReadersAndWriters := by
  refine ⟨fun i s t h => ⟨fun hi => ?_, fun a ha => ?_⟩, fun i s t s' h hs htop => ?_⟩
  · rw [← cellsWritten_eq_nil s hi]
    exact exec_sameMemoryExcept h
  · exact exec_sameMemoryExcept h a fun hc => ha (cellsWritten_subset s i hc)
  · rcases exec_cases h with hc | ⟨a, hb, rfl⟩
    · obtain ⟨t', ht', heffect⟩ := hc.of_mem hs htop
      exact ⟨t', ht'.exec_eq, heffect⟩
    · refine ⟨_, exec_of_firstBadOperand s' hb, ?_⟩
      rw [hs]
      exact ⟨rfl, rfl, rfl, rfl, rfl⟩

end Sys2Proof.Machine

/-! What each instruction does and leaves unchanged (R72 to R74, R78, R84, R85, R90 to R94), from `Completes` and its frames. -/

namespace Sys2Proof.Machine

/-! ### What all instructions but HLT, PRN and CMP share -/

theorem emitted_eq_nil {i : Instr} (s : State) (h : i.mnemonic ≠ .prn) : emitted s i = [] := by
  by_contra he
  obtain ⟨r, rfl⟩ := eq_prn_of_emitted_ne_nil he
  exact h rfl

theorem Completes.sameFlagsRunOut {s t : State} {i : Instr} (h : Completes s i t)
    (hi : i.mnemonic ∉ [.hlt, .prn, .cmp]) : SameFlagsRunOut s t := by
  obtain ⟨hhlt, hprn, hcmp⟩ : i.mnemonic ≠ .hlt ∧ i.mnemonic ≠ .prn ∧ i.mnemonic ≠ .cmp := by simpa using hi
  refine ⟨h.fl_eq hcmp, ?_, ?_⟩
  · rw [h.runState_eq, if_neg (fun e => hhlt (congrArg Instr.mnemonic e))]
  · rw [h.out_eq, emitted_eq_nil s hprn, List.append_nil]

theorem instrLength_opcodeOf (m : Mnemonic) :
    instrLength (opcodeOf m) = BitVec.ofNat 8 (1 + formatOperands (formatOf m)) := by
  cases m <;> decide

/-- The advance of an instruction that is not PC-setting, by its format. -/
theorem Completes.pc_eq_add {s t : State} {i : Instr} (h : Completes s i t) (hp : setsPc i.mnemonic = false) :
    t.pc = s.pc + BitVec.ofNat 8 (1 + formatOperands (formatOf i.mnemonic)) := by
  rw [h.pc_eq hp, instrLength_opcodeOf]

/-! ### HLT and the ALU -/

/-- Settles O1: the effect and frame are those of `Completes.hlt`. -/
theorem hltHalts : Obligations.HltHalts := by
  refine ⟨rfl, fun s => ?_⟩
  have hc : Completes s _ _ := .hlt
  exact ⟨_, hc.exec_eq, rfl, hc.pc_eq_add rfl, hc.sameRegistersExcept, hc.sameMemoryExcept, hc.fl_eq nofun, by simp⟩

/-- Settles O4: the sum of bytes is the sum modulo 256, and the frame is that of `Completes.add`. -/
theorem addWraps : Obligations.AddWraps := by
  intro ra rb s
  have hc : Completes s _ _ := .add ra rb
  refine ⟨_, hc.exec_eq, by simp [alu, BitVec.toNat_add], hc.pc_eq_add rfl, ?_, hc.sameMemoryExcept,
    hc.sameFlagsRunOut (by simp [Instr.mnemonic])⟩
  simpa [regsWritten] using hc.sameRegistersExcept

/-- Settles O5: the product of bytes is the product modulo 256, and the frame is that of `Completes.mul`. -/
theorem mulKeepsLowByte : Obligations.MulKeepsLowByte := by
  intro ra rb s
  have hc : Completes s _ _ := .mul ra rb
  refine ⟨_, hc.exec_eq, by simp [alu, BitVec.toNat_mul], hc.pc_eq_add rfl, ?_, hc.sameMemoryExcept,
    hc.sameFlagsRunOut (by simp [Instr.mnemonic])⟩
  simpa [regsWritten] using hc.sameRegistersExcept

/-- Settles O6: FL is `compareFlags` of the two registers, by its three cases. -/
theorem cmpSetsOneFlag : Obligations.CmpSetsOneFlag := by
  intro ra rb s
  have hc : Completes s _ _ := .cmp ra rb
  have hfl : ((alu .cmp ra rb s).endStep .cmp).fl = compareFlags (s.reg ra) (s.reg rb) := by simp [alu_fl]
  refine ⟨_, hc.exec_eq, fun h => ?_, fun h => hfl.trans (compareFlags_greater h),
    fun h => hfl.trans (compareFlags_less h), hc.pc_eq_add rfl, hc.sameRegistersExcept, hc.sameMemoryExcept, by simp,
    by simp⟩
  rw [hfl, BitVec.eq_of_toNat_eq h]
  exact compareFlags_equal (s.reg rb)

/-! ### The stack -/

/-- Settles O7: the store and the new SP are those of `State.pushByte`. -/
theorem pushStoresBelowSp : Obligations.PushStoresBelowSp := by
  intro r s
  have hc : Completes s _ _ := .push r
  refine ⟨_, hc.exec_eq, by simp, ?_, hc.pc_eq_add rfl, hc.sameRegistersExcept, hc.sameMemoryExcept,
    hc.sameFlagsRunOut (by simp [Instr.mnemonic])⟩
  simp only [State.readMem_endStep, State.readMem_pushByte, if_pos, State.reg_setSp]
  rfl

/-- Settles O8: POP writes the register, then increments the SP that it reads after that write. -/
theorem popLoadsFromSp : Obligations.PopLoadsFromSp := by
  intro r s
  have hc : Completes s _ _ := .pop r
  refine ⟨_, hc.exec_eq, fun hr => ?_, fun hr => ?_, hc.pc_eq_add rfl, ?_, hc.sameMemoryExcept,
    hc.sameFlagsRunOut (by simp [Instr.mnemonic])⟩
  · have hr : r ≠ Config.spIndex := hr
    simp [State.reg_incSp, State.sp_setReg, hr, State.stackTop]
  · have hr : r = Config.spIndex := hr
    simp [State.sp_setReg, hr, State.stackTop]
  · exact fun q hq => hc.sameRegistersExcept q (by simpa [regsWritten, and_comm] using hq)

/-! ### Control flow -/

/-- Settles O9: the store and the new SP are those of `State.pushByte`, and the target is read after it. -/
theorem callPushesReturnAddress : Obligations.CallPushesReturnAddress := by
  intro r s
  have hc : Completes s _ _ := .call r
  refine ⟨_, hc.exec_eq, by simp, ?_, State.reg_pushByte s _ r, hc.sameRegistersExcept, hc.sameMemoryExcept,
    hc.sameFlagsRunOut (by simp [Instr.mnemonic])⟩
  simp only [State.readMem_endStep, State.readMem_setPc, State.readMem_pushByte, if_pos, State.afterTwoBytes]

/-- Settles O10: RET reads the cell at SP before it increments SP. -/
theorem retPopsPc : Obligations.RetPopsPc := by
  intro s
  have hc : Completes s _ _ := .ret
  exact ⟨_, hc.exec_eq, rfl, by simp, hc.sameRegistersExcept, hc.sameMemoryExcept,
    hc.sameFlagsRunOut (by simp [Instr.mnemonic])⟩

/-- Settles O11: `Completes.jmp`. -/
theorem jmpSetsPc : Obligations.JmpSetsPc := by
  intro r s
  have hc : Completes s _ _ := .jmp r
  exact ⟨_, hc.exec_eq, rfl, hc.sameRegistersExcept, hc.sameMemoryExcept,
    hc.sameFlagsRunOut (by simp [Instr.mnemonic])⟩

/-- Settles O12: `Completes.jeq`, by E. -/
theorem jeqBranchesOnEqual : Obligations.JeqBranchesOnEqual := by
  intro r s
  have hc : Completes s _ _ := .jeq r
  exact ⟨_, hc.exec_eq, fun hE => if_pos hE, fun hE => if_neg (by simp [hE]),
    hc.sameRegistersExcept, hc.sameMemoryExcept, hc.sameFlagsRunOut (by simp [Instr.mnemonic])⟩

/-- Settles O13: `Completes.jne`, by E. -/
theorem jneBranchesOnNotEqual : Obligations.JneBranchesOnNotEqual := by
  intro r s
  have hc : Completes s _ _ := .jne r
  exact ⟨_, hc.exec_eq, fun hE => if_neg (by simp [hE]), fun hE => if_pos hE, hc.sameRegistersExcept,
    hc.sameMemoryExcept, hc.sameFlagsRunOut (by simp [Instr.mnemonic])⟩

/-- Settles O15: by E; the two next states are the same state with PC set. -/
theorem jeqJneComplementary : Obligations.JeqJneComplementary := by
  intro r s
  refine ⟨_, _, (Completes.jeq r).exec_eq, (Completes.jne r).exec_eq, ?_, rfl⟩
  cases hE : s.flagE with
  | true => exact .inl ⟨rfl, rfl⟩
  | false => exact .inr ⟨rfl, rfl⟩

/-- Settles O14: CALL left the return address at its new SP, and RET reads it there and takes SP back. -/
theorem callThenRetReturns : Obligations.CallThenRetReturns := by
  intro r s t u ht husp hucell
  obtain ⟨t', ht', hsp, hcell, -⟩ := callPushesReturnAddress r s
  obtain rfl : t' = t := by simpa [ht'] using ht
  obtain ⟨v, hv, hvpc, hvsp, -⟩ := retPopsPc u
  refine ⟨v, hv, ?_, ?_⟩
  · rw [hvpc, husp, hucell, hsp, hcell]
  · rw [hvsp, husp, hsp, sub_add_cancel]

/-! ### Self-modification (R50, R126) -/

/-- Settles O25: the step runs the PUSH it fetched, and a fetch reads memory as the PUSH left it. -/
theorem fetchSeesEarlierStores : Obligations.FetchSeesEarlierStores := by
  intro s r hr hd hr7
  obtain ⟨t, ht, -, hcell, hpc, -⟩ := pushStoresBelowSp r s
  refine ⟨t, (step_of_instr hr hd).trans ht, hpc, fun u humem hupc => ?_⟩
  have hread : u.readMem u.pc = t.readMem (s.sp - 1) := by rw [hupc, State.readMem, humem, State.readMem]
  exact hread.trans (hcell.trans (if_neg hr7))

/-! ### A branch after a CMP (R77) -/

theorem compareFlags_equalBit (x y : Byte) : (compareFlags x y).getLsbD 0 = decide (x = y) := by
  unfold compareFlags
  split
  · next h =>
    rw [decide_eq_true h]
    rfl
  · next h =>
    rw [decide_eq_false h]
    split <;> rfl

theorem execAll_fl {is : List Instr} {s t : State} (hi : ∀ i ∈ is, i.mnemonic ≠ .cmp) (h : execAll is s = .next t) :
    t.fl = s.fl := by
  induction is generalizing s with
  | nil =>
    cases h
    rfl
  | cons i is ih =>
    obtain ⟨u, hu⟩ := exists_exec_eq_next i s
    rw [execAll, hu] at h
    rw [ih (fun j hj => hi j (List.mem_cons_of_mem i hj)) h, exec_fl hu (hi i (by simp))]

/-- Settles O27: the instructions in between keep the FL that CMP wrote, whose E says whether the registers were equal. -/
theorem branchTestsLastCompare : Obligations.BranchTestsLastCompare := by
  intro ra rb r is s t hi h
  rw [execAll, (Completes.cmp ra rb).exec_eq] at h
  have hE : t.flagE = decide (s.reg ra = s.reg rb) := by
    rw [← compareFlags_equalBit, State.flagE, execAll_fl hi h]
    simp [alu_fl]
  refine ⟨_, _, (Completes.jeq r).exec_eq, (Completes.jne r).exec_eq, ?_, ?_⟩ <;>
    simp [State.endStep_pc, setsPc, hE, State.afterTwoBytes]

end Sys2Proof.Machine

/-! Runs of PUSH and POP (R88), and runs of the machine (R68, R92, R128). -/

namespace Sys2Proof.Machine

/-! ### Runs of PUSH and POP (R88) -/

/-- The cell of the `k`-th push, counted from 0, when SP was `b` before the pushes. -/
def stackCell (b : Byte) (k : Nat) : Byte := b - BitVec.ofNat 8 (k + 1)

theorem sub_one_sub_ofNat (b : Byte) (n : Nat) : b - 1 - BitVec.ofNat 8 n = b - BitVec.ofNat 8 (n + 1) := by
  rw [sub_sub, Nat.add_comm n 1, BitVec.ofNat_add]
  rfl

theorem stackCell_succ (b : Byte) (k : Nat) : stackCell b (k + 1) = stackCell (b - 1) k :=
  (sub_one_sub_ofNat b (k + 1)).symm

/-- Up to 256 pushes store to different cells: the first cell is none of the later ones. -/
theorem stackCell_zero_ne_succ (b : Byte) {k : Nat} (hk : k < 255) : stackCell b 0 ≠ stackCell b (k + 1) := by
  intro h
  have hval : (BitVec.ofNat 8 (0 + 1)).toNat = (BitVec.ofNat 8 (k + 1 + 1)).toNat :=
    congrArg BitVec.toNat (sub_right_inj.mp h)
  simp only [BitVec.toNat_ofNat] at hval
  omega

/-- Pushes of registers other than SP complete, store each register's byte to its own cell, and change nothing else but SP. -/
theorem execAll_push (rs : List RegIndex) (s : State) (h7 : 7 ∉ rs) (hlen : rs.length ≤ 256) :
    ∃ t, execAll (rs.map (fun r => .push (regOperand r))) s = .next t ∧ t.sp = s.sp - BitVec.ofNat 8 rs.length ∧
      (∀ k (hk : k < rs.length), t.readMem (stackCell s.sp k) = s.reg rs[k]) ∧
      SameRegistersExcept [7] s t ∧ SameFlagsRunOut s t ∧
      ∀ a, (∀ k < rs.length, a ≠ stackCell s.sp k) → t.readMem a = s.readMem a := by
  induction rs generalizing s with
  | nil => exact ⟨s, rfl, by simp, by simp, fun _ _ => rfl, ⟨rfl, rfl, rfl⟩, fun _ _ => rfl⟩
  | cons r rs ih =>
    obtain ⟨hr7, h7⟩ : r ≠ 7 ∧ 7 ∉ rs := by simpa [eq_comm] using h7
    have hlen : rs.length ≤ 255 := Nat.le_of_succ_le_succ hlen
    obtain ⟨u, hu, husp, hucell, -, hureg, humem, hufl, hurun, huout⟩ := pushStoresBelowSp r s
    obtain ⟨t, ht, htsp, htcell, htreg, ⟨htfl, htrun, htout⟩, htmem⟩ := ih u h7 (by omega)
    refine ⟨t, by simp [execAll, hu, ht], ?_, ?_, fun q hq => (htreg q hq).trans (hureg q hq),
      ⟨htfl.trans hufl, htrun.trans hurun, htout.trans huout⟩, ?_⟩
    · rw [htsp, husp]
      exact sub_one_sub_ofNat s.sp rs.length
    · intro k hk
      cases k with
      | zero =>
        have hfirst : t.readMem (stackCell s.sp 0) = u.readMem (stackCell s.sp 0) := htmem _ fun k hk => by
          rw [husp, ← stackCell_succ]
          exact stackCell_zero_ne_succ s.sp (by omega)
        exact hfirst.trans (hucell.trans (if_neg hr7))
      | succ k =>
        have hk : k < rs.length := Nat.lt_of_succ_lt_succ hk
        have hne : rs[k] ≠ 7 := fun e => h7 (e ▸ List.getElem_mem hk)
        rw [stackCell_succ, ← husp, htcell k hk, hureg _ (by simpa using hne)]
        rfl
    · intro a ha
      have hlater : t.readMem a = u.readMem a := htmem a fun k hk => by
        rw [husp, ← stackCell_succ]
        exact ha (k + 1) (Nat.succ_lt_succ hk)
      exact hlater.trans (humem a (mt List.mem_singleton.mp (ha 0 (Nat.succ_pos _))))

/-- Pops of registers other than SP, in the reverse order of the pushes, complete, load each register from its own cell, take
SP back up, and change nothing else. -/
theorem execAll_pop (rs : List RegIndex) (u : State) (b : Byte) (f : RegIndex → Byte) (h7 : 7 ∉ rs)
    (hsp : u.sp = b - BitVec.ofNat 8 rs.length) (hcell : ∀ k (hk : k < rs.length), u.readMem (stackCell b k) = f rs[k]) :
    ∃ v, execAll (rs.reverse.map (fun r => .pop (regOperand r))) u = .next v ∧ (∀ r ∈ rs, v.reg r = f r) ∧ v.sp = b ∧
      SameRegistersExcept (7 :: rs) u v ∧ SameMemoryExcept [] u v ∧ SameFlagsRunOut u v := by
  induction rs generalizing b with
  | nil => exact ⟨u, rfl, by simp, by simpa using hsp, fun _ _ => rfl, fun _ _ => rfl, rfl, rfl, rfl⟩
  | cons r rs ih =>
    obtain ⟨hr7, h7⟩ : r ≠ 7 ∧ 7 ∉ rs := by simpa [eq_comm] using h7
    obtain ⟨v, hv, hvreg, hvsp, hvframe, hvmem, hvfl, hvrun, hvout⟩ := ih (b - 1) h7
      (hsp.trans (sub_one_sub_ofNat b rs.length).symm) fun k hk => by
        rw [← stackCell_succ]
        exact hcell (k + 1) (Nat.succ_lt_succ hk)
    obtain ⟨w, hw, hwreg, -, -, hwframe, hwmem, hwfl, hwrun, hwout⟩ := popLoadsFromSp r v
    obtain ⟨hwr, hwsp⟩ := hwreg hr7
    have hwr : w.reg r = f r := by
      rw [hwr, hvsp, hvmem _ (by simp)]
      exact hcell 0 (Nat.succ_pos _)
    refine ⟨w, ?_, ?_, by rw [hwsp, hvsp, sub_add_cancel], ?_, fun a ha => (hwmem a ha).trans (hvmem a ha),
      hwfl.trans hvfl, hwrun.trans hvrun, hwout.trans hvout⟩
    · rw [List.reverse_cons, List.map_append, execAll_append hv]
      simp [execAll, hw]
    · intro q hq
      by_cases hqr : q = r
      · rw [hqr, hwr]
      · have hq : q ∈ rs := (List.mem_cons.mp hq).resolve_left hqr
        have hq7 : q ≠ 7 := fun e => h7 (e ▸ hq)
        rw [hwframe q (by simp [hqr, hq7]), hvreg q hq]
    · intro q hq
      obtain ⟨hq7, hqr, hq⟩ : q ≠ 7 ∧ q ≠ r ∧ q ∉ rs := by simpa using hq
      rw [hwframe q (by simp [hqr, hq7]), hvframe q (by simp [hq7, hq])]

/-- Settles O44: `execAll_push`, then `execAll_pop` with each register's value before the pushes. -/
theorem pushesThenPopsRestore : Obligations.PushesThenPopsRestore := by
  intro rs s h7 hlen
  obtain ⟨t, ht, htsp, htcell, htreg, htkeep, htmem⟩ := execAll_push rs s h7 hlen
  refine ⟨t, ht, htreg, htkeep, htmem, fun u husp hucell => ?_⟩
  exact execAll_pop rs u s.sp s.reg h7 (husp.trans htsp) fun k hk => (hucell k hk).trans (htcell k hk)

/-! ### Runs (R68, R128) -/

theorem runFor_of_step_self {s : State} (h : step s = .next s) (k : Nat) : runFor k s = .next s := by
  induction k with
  | zero => rfl
  | succ k ih =>
    rw [runFor, h]
    exact ih

theorem step_of_terminal_eq_true {s : State} (h : s.terminal = true) : step s = .next s :=
  step_of_terminal ((State.terminal_iff s).mp h)

theorem exists_runFor_eq_next (k : Nat) (s : State) : ∃ t, runFor k s = .next t := by
  induction k generalizing s with
  | zero => exact ⟨s, rfl⟩
  | succ k ih =>
    obtain ⟨u, hu⟩ := exists_step_eq_next s
    rw [runFor, hu]
    exact ih u

theorem runFor_add {j : Nat} {s t : State} (h : runFor j s = .next t) (k : Nat) : runFor (j + k) s = runFor k t := by
  induction j generalizing s with
  | zero =>
    cases h
    rw [Nat.zero_add]
  | succ j ih =>
    obtain ⟨u, hu⟩ := exists_step_eq_next s
    rw [runFor, hu] at h
    rw [Nat.succ_add, runFor, hu]
    exact ih h

/-- Once a run is in a terminal state it stays there. -/
theorem runFor_of_terminal {j k : Nat} {s t : State} (h : runFor j s = .next t) (ht : t.terminal = true) (hjk : j ≤ k) :
    runFor k s = .next t := by
  obtain ⟨d, rfl⟩ := Nat.exists_eq_add_of_le hjk
  rw [runFor_add h, runFor_of_step_self (step_of_terminal_eq_true ht)]

theorem RunEndsIn.unique {s t u : State} (ht : RunEndsIn s t) (hu : RunEndsIn s u) : t = u := by
  obtain ⟨htt, j, hj⟩ := ht
  obtain ⟨hut, k, hk⟩ := hu
  have ht' := runFor_of_terminal hj htt (le_max_left j k)
  rw [runFor_of_terminal hk hut (le_max_right j k)] at ht'
  cases ht'
  rfl

theorem runsForever_iff {s : State} : RunsForever s ↔ ¬∃ t, RunEndsIn s t := by
  constructor
  · rintro h ⟨t, htt, k, hk⟩
    obtain ⟨u, hu, hur⟩ := h k
    obtain rfl : t = u := by simpa [hk] using hu
    exact (State.terminal_iff t).mp htt hur
  · intro h k
    obtain ⟨t, ht⟩ := exists_runFor_eq_next k s
    refine ⟨t, ht, ?_⟩
    by_contra hn
    exact h ⟨t, (State.terminal_iff t).mpr hn, k, ht⟩

/-- Settles O45: a terminal state lasts, so two ends are one, and a run that no number of steps ends is always Running. -/
theorem runEndsOnceOrNever : Obligations.RunEndsOnceOrNever := fun _ => ⟨fun _ _ => RunEndsIn.unique, runsForever_iff⟩

/-- Settles O46: the jump sets PC to the value it has, so the step is a fixpoint. -/
theorem selfJumpRunsForever : Obligations.SelfJumpRunsForever := by
  intro s r hr hd hpc
  have hstep : step s = .next s := by
    rw [step_of_instr hr hd, (Completes.jmp r).exec_eq, hpc]
    rfl
  exact ⟨hstep, fun k => ⟨s, runFor_of_step_self hstep k, hr⟩⟩

end Sys2Proof.Machine
